-- ==== Sys2Proof/Word.lean ====
section
/-! DEFINITION. The widths of the block: R5 (`STATE_W`, `OUT_W`), R8, R35. -/

namespace Sys2Proof

/-- A 64-bit value: `state`, `increment`, an operand, the `data` of a response (R5, R35, R41). -/
abbrev Word := BitVec 64

/-- A 32-bit raw output (R5, `OUT_W`). -/
abbrev Half := BitVec 32

/-- A rotate amount, 0 to 31 (R5, `ROT_W`). -/
abbrev Rot := BitVec 5

end Sys2Proof
end

