-- ==== Sys2Proof/Config.lean ====
section
/-! DEFINITION. The free values of the model: what the Entropy Source and the Clock hand over (R24, R25, U3, U4). -/

namespace Sys2Proof.Config

/-- The word on the entropy port at read number `n`, where the environment in State lists no integer for it: a free
64-bit value under no law (R24, U3; log entry 4). -/
opaque freeEntropy : Nat → Word

/-- The word on the clock port at read number `n`, where the environment in State lists no integer for it: a free
64-bit value under no law (R25, U4; log entry 4). -/
opaque freeClock : Nat → Word

end Sys2Proof.Config
end

