-- ==== Sys2Proof/Machine/Operands.lean ====
section
/-! DEFINITION. How operands and results are read and written: the signed reading, the reductions to a width and the
widenings of R8, R38, R43, and the optional arguments of R37. -/

namespace Sys2Proof.Machine

/-- `s64(v)`: the signed two's-complement reading of a 64-bit pattern (R8; PRESUMED by the spec itself, G1). -/
def s64 (v : Word) : Int := v.toInt

/-- `u64(v) = v mod 2^64`: the 64-bit pattern of an integer (R8, R43). -/
def u64 (v : Int) : Word := BitVec.ofInt 64 v

/-- `zext_64(v)` of a 32-bit raw output (R8, R43). -/
def zext64 (v : Half) : Word := v.setWidth 64

/-- An unsigned integer handed over by a collaborator, as the 64-bit port shows it: zero-extended if it is narrower than
64 bits, reduced modulo 2^64 if it is wider (R24, R25, C4). -/
def portWord (n : Nat) : Word := BitVec.ofNat 64 n

/-- An optional argument from its presence bit and its value field (R37). -/
def optionOf (present : Bool) (v : Word) : Option Word := if present then some v else none

/-- The increment seed used: the supplied one, or `DEFAULT_INCSEED = 1` (R5, R62). -/
def incseedOf (incseed : Option Word) : Word := incseed.getD 1

end Sys2Proof.Machine
end

