-- ==== Sys2Proof/Syntax.lean ====
section
/-! DEFINITION. The command record and the instructions it stands for (30_encoding.md). -/

namespace Sys2Proof

/-- One command as the command port carries it, `cmd = (ctl, a, b)` (R22, R35). -/
structure Command where
  ctl : BitVec 4
  a : Word
  b : Word
  deriving DecidableEq, Repr

/-- The four rows of spec/opcode_table.json (R36, R44, R47). An optional argument is an Option (R37);
the bounds of NEXT_RANGE are the signed integers `s64(a)` and `s64(b)` (R38). -/
inductive Instr where
  /-- NEW: the optional seed and the optional increment seed (R60). -/
  | new (seed incseed : Option Word)
  /-- NEXT_U32: no operands (R65). -/
  | nextU32
  /-- NEXT_RANGE: the inclusive signed bounds (R70). -/
  | nextRange (low high : Int)
  /-- The reserved operation code `0b11` (R40, R84). -/
  | reserved
  deriving DecidableEq, Repr

end Sys2Proof
end

