-- ==== Sys2Proof/WellFormed.lean ====
section
/-! DEFINITION. Which instructions a command word can carry: the bounds of NEXT_RANGE are 64-bit signed
integers (R38, R70); every other operand is legal as it is (R37, R60). -/

namespace Sys2Proof

/-- The least 64-bit signed integer, −2^63 (R38). -/
def minS64 : Int := -9223372036854775808

/-- The greatest 64-bit signed integer, 2^63 − 1 (R38). -/
def maxS64 : Int := 9223372036854775807

/-- `v` is a 64-bit signed integer (R38). -/
def inS64 (v : Int) : Bool := decide (minS64 ≤ v) && decide (v ≤ maxS64)

/-- The check of an instruction's operands. -/
def Instr.wf : Instr → Bool
  | .new _ _ => true
  | .nextU32 => true
  | .nextRange low high => inS64 low && inS64 high
  | .reserved => true

/-- An instruction that a command word can carry. -/
abbrev Instr.WellFormed (i : Instr) : Prop := i.wf = true

end Sys2Proof
end

