-- ==== Sys2Proof/Decode.lean ====
section
/-! DEFINITION. From command words to instructions and back (R35 to R40, R44, R47). The decoder is total: each of the
16 values of `ctl` has one of the four meanings, the reserved operation code among them, so it rejects nothing. -/

namespace Sys2Proof

/-- The `op` field, `ctl[3:2]` (R35). -/
def Command.op (c : Command) : BitVec 2 := c.ctl.extractLsb' 2 2

/-- The "seed present" bit, `ctl[1]` (R35). -/
def Command.sp (c : Command) : Bool := c.ctl.getLsbD 1

/-- The "increment seed present" bit, `ctl[0]` (R35). -/
def Command.ip (c : Command) : Bool := c.ctl.getLsbD 0

/-- The command in the word `cw[131:0] = {ctl, a, b}` (R35). -/
def Command.ofWord (cw : BitVec 132) : Command :=
  { ctl := cw.extractLsb' 128 4, a := cw.extractLsb' 64 64, b := cw.extractLsb' 0 64 }

/-- The word `cw[131:0] = {ctl, a, b}` of a command (R35). -/
def Command.toWord (c : Command) : BitVec 132 := c.ctl ++ c.a ++ c.b

/-- The decoding procedure (R44). -/
def decode (c : Command) : Instr :=
  if c.op = 0b00 then .new (Machine.optionOf c.sp c.a) (Machine.optionOf c.ip c.b)
  else if c.op = 0b01 then .nextU32
  else if c.op = 0b10 then .nextRange (Machine.s64 c.a) (Machine.s64 c.b)
  else .reserved

/-- The operation code of an instruction (R36). -/
def Instr.opField : Instr → BitVec 2
  | .new _ _ => 0b00
  | .nextU32 => 0b01
  | .nextRange _ _ => 0b10
  | .reserved => 0b11

/-- The control field `{0b00, sp, ip}` of a NEW (R44). -/
def newCtl (seed incseed : Option Word) : BitVec 4 :=
  (0b00 : BitVec 2) ++ BitVec.ofBool seed.isSome ++ BitVec.ofBool incseed.isSome

/-- The canonical command of an instruction: every ignored bit 0 (R39, R44). The spec writes no encoding of the
reserved operation; its canonical command is `0b1100` with operands 0, by R39 (DEDUCED, log entry 10). -/
def encode : Instr → Command
  | .new seed incseed => { ctl := newCtl seed incseed, a := seed.getD 0, b := incseed.getD 0 }
  | .nextU32 => { ctl := 0b0100, a := 0, b := 0 }
  | .nextRange low high => { ctl := 0b1000, a := Machine.u64 low, b := Machine.u64 high }
  | .reserved => { ctl := 0b1100, a := 0, b := 0 }

/-- The command is canonical: every bit its instruction ignores is 0 (R39). -/
def Command.canonical (c : Command) : Bool :=
  if c.op = 0b00 then (c.sp || c.a == 0) && (c.ip || c.b == 0)
  else if c.op = 0b01 then !c.sp && !c.ip && c.a == 0 && c.b == 0
  else if c.op = 0b10 then !c.sp && !c.ip
  else !c.sp && !c.ip && c.a == 0 && c.b == 0

/-- The command whose bits, as spec/opcode_table.json numbers a row's `fixed` bits, are `w`: that numbering is over
`ctl[3:0]` (`match_mask_over`) and gives the operands no bits, so they are 0; where 132 bits or more are given, `w` is
the command word `cw[131:0]` the table's `cw_match` is over (log entry 12). -/
def tableCommand (nbits w : Nat) : Command :=
  if nbits < 132 then { ctl := BitVec.ofNat 4 w, a := 0, b := 0 }
  else Command.ofWord (BitVec.ofNat 132 w)

/-- The instruction the decoder reads from the bits `w` of an opcode-table row. -/
def decodeTableWord (nbits w : Nat) : Option Instr := some (decode (tableCommand nbits w))

end Sys2Proof
end

