-- ==== Sys2Proof/Machine/Datapath.lean ====
section
/-! DEFINITION. The pure functions the commands are built from (40_datapath_functions.md, R50 to R58). -/

namespace Sys2Proof.Machine

/-- The multiplier `MULT` (R5, R51). -/
def mult : Word := 6364136223846793005#64

/-- `incr_of(incseed)`: shift left by one, force the low bit to 1 (R52). -/
def incrOf (incseed : Word) : Word := (incseed <<< 1) ||| 1

/-- `lcg_step(s, inc)`: the congruential step (R53). The constant stands first, so that the kernel, which reduces a product
by its second factor, never counts down from it. -/
def lcgStep (s inc : Word) : Word := mult * s + inc

/-- `xorshifted_of(old)`: logical shifts by 18 and 27, cut to 32 bits (R54). -/
def xorshiftedOf (old : Word) : Half := (((old >>> 18) ^^^ old) >>> 27).setWidth 32

/-- `rot_of(old)`: the top five bits (R55). -/
def rotOf (old : Word) : Rot := (old >>> 59).setWidth 5

/-- `ror32(x, r)`: rotate right by `r`, with the explicit branch at 0, so that no shift by 32 occurs (R56, R99). -/
def ror32 (x : Half) (r : Rot) : Half :=
  if r = 0 then x else (x >>> r.toNat) ||| (x <<< (32 - r.toNat))

/-- `xsh_rr(old)`: the output permutation (R57). -/
def xshRr (old : Word) : Half := ror32 (xorshiftedOf old) (rotOf old)

/-- `span = high − low + 1`, on unbounded integers (R58, R101). -/
def spanOf (low high : Int) : Int := high - low + 1

/-- `range_map(r, low, high)`, on unbounded integers (R58). -/
def rangeMap (r : Half) (low high : Int) : Int := low + (r.toNat : Int) % spanOf low high

/-- The equivalent form of the mapper for a 64-bit datapath: the pattern of the result from the patterns of the
bounds, with a remainder of 32-bit operands only (R58). No meaning uses it; an obligation compares the two. -/
def rangeMap64 (r : Half) (a b : Word) : Word :=
  let d := b - a
  let q := if 0xFFFFFFFF#64 ≤ d then zext64 r else zext64 (r % (d + 1).setWidth 32)
  a + q

end Sys2Proof.Machine
end

