-- ==== Sys2Proof/Machine/State.lean ====
section
/-! DEFINITION. The state of the machine: the engine (10_state.md), what the block's output ports showed in the latest
step, and the inputs the outside world has still to present (20_memory.md). -/

namespace Sys2Proof.Machine

/-- An Engine instance: the two 64-bit registers (R10, R11). -/
structure Engine where
  /-- `state`: advanced by one congruential step by each output (R10). -/
  state : Word
  /-- `increment`: fixed for the lifetime of the instance, and odd (R11). -/
  increment : Word
  deriving DecidableEq, Repr

/-- The status of a response (R42). -/
inductive Status where
  /-- The command was executed. -/
  | ok
  /-- NEXT_U32 or NEXT_RANGE while no instance exists (R83). -/
  | errNoEngine
  /-- NEXT_RANGE with `low > high` (R82). -/
  | errInvalidRange
  /-- The reserved operation code (R84). -/
  | errReservedOp
  deriving DecidableEq, Repr

/-- One response, `rsp = (status, data)` (R41). -/
structure Response where
  status : Status
  data : Word
  deriving DecidableEq, Repr

/-- What the reset input does during one step (R95; log entry 8). -/
inductive Rst where
  /-- `rst = 0`. -/
  | low
  /-- `rst = 1`. -/
  | high
  /-- `rst` rises while the step's command is in execution, after `k` of the draws the command makes. -/
  | rises (k : Nat)
  deriving DecidableEq, Repr

/-- The machine. `engine` is the whole architectural state of the block: `none` is `init = 0`,
`some (state, increment)` is `init = 1` (10_state.md, R12). The other fields are the block's ports. -/
structure State where
  /-- `state`, `increment` and `init` (R10, R11, R12). -/
  engine : Option Engine
  /-- `cmd_ready` (R22). -/
  cmdReady : Bool
  /-- `rsp_valid`, `rsp_status`, `rsp_data` in the latest step; an event, not state of the block (R23). -/
  rsp : Option Response
  /-- `ent_take`: the latest step took an entropy value (R24). -/
  entTake : Bool
  /-- `clk_take`: the latest step took a clock value (R25). -/
  clkTake : Bool
  /-- `rst` in the steps to come, one entry a step; after the last entry it is low (R95). -/
  rstIn : List Rst
  /-- The commands the host has still to present, in the order of acceptance (R22, R31, R33). -/
  cmds : List Command
  /-- What the Entropy Source hands over at its next reads, one entry a read: an integer, or none for a value that is not
  stated and so is free; after the last entry every value is free (R24). -/
  entIn : List (Option Nat)
  /-- What the Clock hands over at its next reads, in the same form (R25). -/
  clkIn : List (Option Nat)
  /-- How many entropy values were taken (R30). -/
  entReads : Nat
  /-- How many clock values were taken (R30). -/
  clkReads : Nat
  deriving DecidableEq, Repr

/-- Why a step stops the machine. The block has no such step: an error is a status in a response (R80), every command
has a next state and a response for every value of its inputs (R109), so this type has no constructor and nobody raises
it (safe: nothing is claimed of a stopped machine). -/
inductive Fault where
  deriving DecidableEq, Repr

/-- Why an instruction has no meaning. -/
inductive Refusal where
  /-- Raised by `exec` alone for an instruction whose meaning is not written; no arm raises it now (safe). -/
  | notModelled (mnemonic : String)
  deriving DecidableEq, Repr

/-- The machine right after reset (R18, R95, R97): no instance, `cmd_ready = 1`, no response, no draw. The inputs
still to come and the counters of draws are the model's own fields, empty and 0 (log entries 3, 4, 8). -/
def State.reset : State :=
  { engine := none, cmdReady := true, rsp := none, entTake := false, clkTake := false,
    rstIn := [], cmds := [], entIn := [], clkIn := [], entReads := 0, clkReads := 0 }

end Sys2Proof.Machine
end

