-- ==== Sys2Proof/Machine/Flags.lean ====
section
/-! DEFINITION. The block has no flags and no condition codes (R13, R50). What a command reports is the status of its
response: its codes (R42), the response as one word (R41), and which error wins (R81, R87). -/

namespace Sys2Proof.Machine

/-- The two-bit code of a status (R42). -/
def Status.code : Status → BitVec 2
  | .ok => 0b00
  | .errNoEngine => 0b01
  | .errInvalidRange => 0b10
  | .errReservedOp => 0b11

/-- The response as one word, `rw[65:0] = {status, data}` (R41). -/
def Response.toWord (r : Response) : BitVec 66 := r.status.code ++ r.data

/-- The response is a refusal (R80). -/
def Response.isError (r : Response) : Bool := r.status ≠ .ok

/-- The bounds of NEXT_RANGE make an invalid range: `low > high` as signed numbers (R71, R82). -/
def invalidRange (low high : Int) : Bool := decide (high < low)

end Sys2Proof.Machine
end

