-- ==== Sys2Proof/Machine/Ops.lean ====
section
/-! DEFINITION. The shared operations on the engine and on the ports: reading the ports, drawing, advancing the engine,
answering a command, refusing one (R80, the one form of an error; R89: there is nothing to return from), and reset. -/

namespace Sys2Proof.Machine

/-- The flag `init`: an instance exists (R12). -/
def State.init (s : State) : Bool := s.engine.isSome

/-- `rst` in this step (R95). -/
def State.rstNow (s : State) : Rst := s.rstIn.headD .low

/-- `cmd_valid`: the host presents a command (R22). -/
def State.cmdValid (s : State) : Bool := !s.cmds.isEmpty

/-- `rsp_valid`: the latest step produced a response (R23). -/
def State.rspValid (s : State) : Bool := s.rsp.isSome

/-- The word on the entropy port: the integer stated for the next read, else a free value (R24). -/
def State.entValue (s : State) : Word :=
  match s.entIn with
  | some n :: _ => portWord n
  | none :: _ => Config.freeEntropy s.entReads
  | [] => Config.freeEntropy s.entReads

/-- The word on the clock port: the tick count stated for the next read, else a free value (R25). -/
def State.clkTicks (s : State) : Word :=
  match s.clkIn with
  | some n :: _ => portWord n
  | none :: _ => Config.freeClock s.clkReads
  | [] => Config.freeClock s.clkReads

/-- The entropy value is taken: `ent_take` for this step, one read more, the next value to come (R24, R30). -/
def State.takeEntropy (s : State) : State :=
  { s with entTake := true, entReads := s.entReads + 1, entIn := s.entIn.tail }

/-- The clock value is taken: `clk_take` for this step, one read more, the next value to come (R25, R30). -/
def State.takeClock (s : State) : State :=
  { s with clkTake := true, clkReads := s.clkReads + 1, clkIn := s.clkIn.tail }

/-- `draw_entropy()` (R9, R24). -/
def drawEntropy (s : State) : Word × State := (s.entValue, s.takeEntropy)

/-- `draw_clock()` (R9, R25). -/
def drawClock (s : State) : Word × State := (s.clkTicks, s.takeClock)

/-- `state` and `increment` are written and an instance exists (R12). -/
def State.setEngine (s : State) (e : Engine) : State := { s with engine := some e }

/-- One next-output operation (R65 steps 1 to 5): the raw output, from the state before the advance (R100), and the
engine advanced by one congruential step. -/
def nextOutput (e : Engine) : Half × Engine :=
  (xshRr e.state, { e with state := lcgStep e.state e.increment })

/-- The response of the command is produced and the block is ready for the next command (R22, R23). -/
def State.answer (s : State) (status : Status) (data : Word) : State :=
  { s with rsp := some { status := status, data := data }, cmdReady := true }

/-- `respond(status, data)`: the command ends with its one response (R9, R41). -/
def respond (status : Status) (data : Word) (s : State) : Host.Outcome State Fault Refusal :=
  .next (s.answer status data)

/-- `raise <Error>`: the command is refused; nothing changes and the response is the error's code with data 0 (R80).
This is all there is to taking an exception; nothing is entered and nothing returns (R88, R89). -/
def raise (error : Status) (s : State) : Host.Outcome State Fault Refusal := respond error 0 s

/-- A step begins: the one-cycle events of the step before are over, the reset input moves on, and the block is ready
for a command (R22, R23, R24, R25). -/
def State.beginStep (s : State) : State :=
  { s with cmdReady := true, rsp := none, entTake := false, clkTake := false, rstIn := s.rstIn.tail }

/-- A command is accepted: it leaves the port and the block is busy until its response (R22). -/
def State.accept (s : State) (rest : List Command) : State := { s with cmds := rest, cmdReady := false }

/-- `rst` is 1: the block is unconstructed when it falls, and accepts no command (R95). -/
def State.underReset (s : State) : State := { s with engine := none, cmdReady := false }

/-- The instruction is a default-seeded construction, the only one that draws (R26). -/
def drawsSeed : Instr → Bool
  | .new none _ => true
  | .new (some _) _ => false
  | .nextU32 => false
  | .nextRange _ _ => false
  | .reserved => false

/-- The first `k` of the draws a default-seeded construction makes, entropy before clock (R26). -/
def State.takeDraws (s : State) : Nat → State
  | 0 => s
  | 1 => s.takeEntropy
  | _ + 2 => s.takeEntropy.takeClock

/-- `rst` rises while the command presented is in execution, after `k` of its draws: the command is abandoned without a
response, and the block is under reset (R34, R95; log entry 9). Without a command there is nothing to abandon. -/
def State.abandon (s : State) (k : Nat) : State :=
  match s.cmds with
  | [] => s.underReset
  | c :: rest =>
    let busy := s.accept rest
    if drawsSeed (decode c) then (busy.takeDraws k).underReset else busy.underReset

end Sys2Proof.Machine
end

