-- ==== Sys2Proof/Machine/Construction.lean ====
section
/-! DEFINITION. NEW (41_new.md, R60 to R64). -/

namespace Sys2Proof.Machine

/-- Step 1: the seed, supplied or drawn, entropy first (R26, R61). -/
def chooseSeed (seed : Option Word) (s : State) : Word × State :=
  match seed with
  | some v => (v, s)
  | none =>
    let (entropy, s1) := drawEntropy s
    let (ticks, s2) := drawClock s1
    (entropy + ticks, s2)

/-- NEW: choose the seed (R61), make the increment (R62), set the state and discard one output (R63, R102), answer
`(OK, 0)`. Nothing of an older instance is read (R64). -/
def execNew (seed incseed : Option Word) (s : State) : Host.Outcome State Fault Refusal :=
  let (seed64, s1) := chooseSeed seed s
  let seeded : Engine := { state := seed64, increment := incrOf (incseedOf incseed) }
  let (_, primed) := nextOutput seeded
  respond .ok 0 (s1.setEngine primed)

end Sys2Proof.Machine
end

