-- ==== Sys2Proof/Machine/Output.lean ====
section
/-! DEFINITION. NEXT_U32 and NEXT_RANGE (42_next_u32.md, 43_next_range.md, R65 to R77). -/

namespace Sys2Proof.Machine

/-- NEXT_U32: refused without an instance (R66); else one output, zero-extended, and one step of the state (R65). -/
def execNextU32 (s : State) : Host.Outcome State Fault Refusal :=
  match s.engine with
  | none => raise .errNoEngine s
  | some e =>
    let (out, advanced) := nextOutput e
    respond .ok (zext64 out) (s.setEngine advanced)

/-- NEXT_RANGE: refused without an instance, then refused for `low > high`, both before any output is drawn (R71,
R87); else exactly one output, mapped into the range (R72, R74). -/
def execNextRange (low high : Int) (s : State) : Host.Outcome State Fault Refusal :=
  match s.engine with
  | none => raise .errNoEngine s
  | some e =>
    if invalidRange low high then raise .errInvalidRange s
    else
      let (out, advanced) := nextOutput e
      respond .ok (u64 (rangeMap out low high)) (s.setEngine advanced)

end Sys2Proof.Machine
end

