-- ==== Sys2Proof/Machine/ReservedOp.lean ====
section
/-! DEFINITION. The reserved operation code (R40, R84). -/

namespace Sys2Proof.Machine

/-- A command with `op = 0b11` is refused in either condition of `init` (R84). -/
def execReserved (s : State) : Host.Outcome State Fault Refusal := raise .errReservedOp s

end Sys2Proof.Machine
end

