-- ==== Sys2Proof/Machine/Dispatch.lean ====
section
/-! DEFINITION. One arm per instruction: each calls the instruction's own meaning. -/

namespace Sys2Proof.Machine

def exec (i : Instr) (s : State) : Host.Outcome State Fault Refusal :=
  match i with
  | .new seed incseed => Sys2Proof.Machine.execNew seed incseed s
  | .nextU32 => Sys2Proof.Machine.execNextU32 s
  | .nextRange low high => Sys2Proof.Machine.execNextRange low high s
  | .reserved => Sys2Proof.Machine.execReserved s

end Sys2Proof.Machine
end

