-- ==== Sys2Proof/Machine/Fetch.lean ====
section
/-! DEFINITION. How a step begins: the reset input is looked at first (R95), then the command port (R22). The block
fetches nothing from memory; its program is the host's order of commands (R13, R20). -/

namespace Sys2Proof.Machine

/-- The instruction of the command this step accepts, if it accepts one, and the state in which it is executed or, if
there is none, the state the step leaves: under reset (R95), or idle, holding the engine (R109; log entry 7). -/
def fetch (s : State) : Option Instr × State :=
  match s.rstNow with
  | .high => (none, s.beginStep.underReset)
  | .rises k => (none, s.beginStep.abandon k)
  | .low =>
    match s.cmds with
    | [] => (none, s.beginStep)
    | c :: rest => (some (decode c), s.beginStep.accept rest)

/-- `s` with the command `c` presented next and `rst` low in the next step. -/
def State.present (s : State) (c : Command) : State :=
  { s with rstIn := .low :: s.rstIn, cmds := c :: s.cmds }

end Sys2Proof.Machine
end

