-- ==== Sys2Proof/Machine/Step.lean ====
section
/-! DEFINITION. One step: one transaction, or one step under reset, or one idle step (R7, R21, R31). -/

namespace Sys2Proof.Machine

/-- One step of the machine: the command accepted is executed to its response before anything else happens (R31). -/
def step (s : State) : Host.Outcome State Fault Refusal :=
  match fetch s with
  | (some i, t) => exec i t
  | (none, t) => .next t

/-- `s` with the instruction of an opcode-table row presented at the command port, to be accepted by the next step. -/
def State.withFetchWord (s : State) (nbits w : Nat) : State := s.present (tableCommand nbits w)

end Sys2Proof.Machine
end

