-- ==== Sys2Proof/Machine/Written.lean ====
section
/-! DEFINITION. The written syntax of command sequences (R45, R46): one line to a command or to a test directive, and a
list of lines to the inputs the outside world presents. A line is a list of characters. -/

namespace Sys2Proof.Machine

/-- What one written line says (R45). -/
inductive Line where
  /-- A command. -/
  | command (i : Instr)
  /-- `.draw ent=<u64>, clk=<u64>`: the values the next default-seeded NEW will draw. -/
  | draw (ent clk : Word)
  /-- `.reset`: the reset input is pulsed there. -/
  | resetPulse
  /-- Nothing but space or a comment. -/
  | blank
  deriving DecidableEq, Repr

/-- The line without its comment: `;` starts a comment (R45). -/
def uncommented (cs : List Char) : List Char := cs.takeWhile (· ≠ ';')

/-- Space around a word, between the words of a line and around a comma (log entry 22). -/
def isSpace (c : Char) : Bool := c == ' ' || c == '\t' || c == '\r'

/-- The characters without the spaces at both ends. -/
def trimmed (cs : List Char) : List Char :=
  ((cs.dropWhile isSpace).reverse.dropWhile isSpace).reverse

/-- The pieces between the commas, trimmed. -/
def commaParts : List Char → List (List Char)
  | [] => [[]]
  | c :: cs =>
    if c = ',' then [] :: commaParts cs
    else match commaParts cs with
      | [] => [[c]]
      | p :: ps => (c :: p) :: ps

/-- The value of a digit in base 10 or 16. -/
def digitOf (base : Nat) (c : Char) : Option Nat :=
  let v : Option Nat :=
    if '0' ≤ c ∧ c ≤ '9' then some (c.toNat - '0'.toNat)
    else if 'a' ≤ c ∧ c ≤ 'f' then some (c.toNat - 'a'.toNat + 10)
    else if 'A' ≤ c ∧ c ≤ 'F' then some (c.toNat - 'A'.toNat + 10)
    else none
  v.filter (· < base)

/-- The number the digits write after those already read. -/
def digitsFrom (base : Nat) : Nat → List Char → Option Nat
  | acc, [] => some acc
  | acc, c :: cs => (digitOf base c).bind fun d => digitsFrom base (base * acc + d) cs

/-- A non-empty string of digits. -/
def numeral (base : Nat) (cs : List Char) : Option Nat :=
  if cs.isEmpty then none else digitsFrom base 0 cs

/-- `<u64>`: an unsigned number, decimal or `0x` hexadecimal, at most 2^64 − 1 (R45). DESIGN CHOICE (log entry 22): no sign
is taken, the `x` is small, and leading zeros are taken in any number. -/
def writtenU64 (cs : List Char) : Option Word :=
  let n := match cs with
    | '0' :: 'x' :: hex => numeral 16 hex
    | dec => numeral 10 dec
  (n.filter (· < 2 ^ 64)).map (BitVec.ofNat 64)

/-- `<low>` and `<high>`: a signed decimal number of 64 bits, or a `0x` pattern of up to 16 digits read as two's
complement (R45). DESIGN CHOICE (log entry 22): a decimal number may have a leading '-' and no leading '+', a point the
spec leaves open; a pattern has no sign. -/
def writtenS64 (cs : List Char) : Option Int :=
  let v : Option Int := match cs with
    | '0' :: 'x' :: hex =>
      if hex.length ≤ 16 then (numeral 16 hex).map fun n => s64 (BitVec.ofNat 64 n) else none
    | '-' :: dec => (numeral 10 dec).map fun n => -(n : Int)
    | dec => (numeral 10 dec).map fun n => (n : Int)
  v.filter inS64

/-- What follows a keyword and its `=` (`seed=`, `ent=`). -/
def keyed (key : List Char) (cs : List Char) : Option (List Char) :=
  if key.isPrefixOf cs then some (cs.drop key.length) else none

/-- A keyword argument with a `<u64>` value. -/
def keyedU64 (key : List Char) (cs : List Char) : Option Word := (keyed key cs).bind writtenU64

/-- The keyword arguments of NEW: an argument left out is absent (R45). -/
def writtenNew (args : List (List Char)) : Option Instr :=
  match args with
  | [[]] => some (.new none none)
  | [x] =>
    match keyedU64 "seed=".toList x with
    | some v => some (.new (some v) none)
    | none => (keyedU64 "incseed=".toList x).map fun v => .new none (some v)
  | [x, y] =>
    (keyedU64 "seed=".toList x).bind fun v =>
      (keyedU64 "incseed=".toList y).map fun w => .new (some v) (some w)
  | _ => none

/-- The bounds of NEXT_RANGE (R45). -/
def writtenRange (args : List (List Char)) : Option Instr :=
  match args with
  | [x, y] => (writtenS64 x).bind fun low => (writtenS64 y).map fun high => .nextRange low high
  | _ => none

/-- The two values of `.draw` (R45). -/
def writtenDraw (args : List (List Char)) : Option Line :=
  match args with
  | [x, y] =>
    (keyedU64 "ent=".toList x).bind fun e => (keyedU64 "clk=".toList y).map fun c => .draw e c
  | _ => none

/-- One written line (R45, R46): a command, a directive or nothing. There are no pseudo-instructions, and the reserved
operation has no written form. That a line may be empty but for a comment is a DESIGN CHOICE (log entry 22). -/
def parseLine (cs : List Char) : Option Line :=
  let text := trimmed (uncommented cs)
  let word := text.takeWhile (!isSpace ·)
  let rest := trimmed (text.dropWhile (!isSpace ·))
  let args := (commaParts rest).map trimmed
  if text.isEmpty then some .blank
  else if word = "NEW".toList then (writtenNew args).map .command
  else if word = "NEXT_U32".toList ∧ rest.isEmpty then some (.command .nextU32)
  else if word = "NEXT_RANGE".toList then (writtenRange args).map .command
  else if word = ".draw".toList then writtenDraw args
  else if word = ".reset".toList ∧ rest.isEmpty then some .resetPulse
  else none

/-- `s` with the outside world presenting exactly the lines, where `offered` are the two values that a `.draw` line before
them states and no NEW has drawn yet (R45). Each command takes one step with `rst` low and each `.reset` one step with
`rst` high. The next default-seeded NEW draws the offered values, and a NEW without a seed that no `.draw` line stands
before draws values that no line states; any other line leaves the offer standing. Of two `.draw` lines for one NEW the
later counts (DESIGN CHOICE, log entry 22). -/
def State.presentFrom (s : State) : Option (Word × Word) → List Line → State
  | offered, [] =>
    { s with rstIn := [], cmds := [], entIn := (offered.map fun p => some p.1.toNat).toList,
             clkIn := (offered.map fun p => some p.2.toNat).toList }
  | offered, .command i :: rest =>
    if drawsSeed i then
      let t := s.presentFrom none rest
      { t with rstIn := .low :: t.rstIn, cmds := encode i :: t.cmds,
               entIn := (offered.map fun p => p.1.toNat) :: t.entIn,
               clkIn := (offered.map fun p => p.2.toNat) :: t.clkIn }
    else
      let t := s.presentFrom offered rest
      { t with rstIn := .low :: t.rstIn, cmds := encode i :: t.cmds }
  | _, .draw ent clk :: rest => s.presentFrom (some (ent, clk)) rest
  | offered, .resetPulse :: rest =>
    let t := s.presentFrom offered rest
    { t with rstIn := .high :: t.rstIn }
  | offered, .blank :: rest => s.presentFrom offered rest

/-- `s` with the outside world presenting exactly the command sequence, in place of what it had still to present. -/
def State.presentLines (s : State) (lines : List Line) : State := s.presentFrom none lines

/-- The steps that the lines take: one for each command and each `.reset`. -/
def lineSteps : List Line → Nat
  | [] => 0
  | .command _ :: rest => lineSteps rest + 1
  | .draw _ _ :: rest => lineSteps rest
  | .resetPulse :: rest => lineSteps rest + 1
  | .blank :: rest => lineSteps rest

/-- The line states the values of a draw. -/
def Line.isDraw : Line → Bool
  | .command _ => false
  | .draw _ _ => true
  | .resetPulse => false
  | .blank => false

/-- The line is a NEW without a seed, which draws (R26). -/
def Line.isDefaultSeeded : Line → Bool
  | .command i => drawsSeed i
  | .draw _ _ => false
  | .resetPulse => false
  | .blank => false

end Sys2Proof.Machine
end

