-- ==== Sys2Proof/Safety.lean ====
section
/-! DEFINITION. The terms claims are stated in: the invariant, what a run without an error is, and the spec's formulas on
unbounded integers (R8), which the 64-bit datapath is compared with. -/

namespace Sys2Proof

/-- The command, on a constructed block, draws an output: a NEXT_U32, or a NEXT_RANGE with a valid range (R67, R88). -/
def Command.drawsOutput (c : Command) : Bool :=
  c.op == 0b01 || (c.op == 0b10 && decide (c.a.toInt ≤ c.b.toInt))

/-- The two commands agree on every bit that their instruction does not ignore (R39). -/
def Command.sameUsedBits (c d : Command) : Prop :=
  c.op = d.op ∧
    (c.op = 0b00 → c.sp = d.sp ∧ c.ip = d.ip ∧ (c.sp = true → c.a = d.a) ∧ (c.ip = true → c.b = d.b)) ∧
    (c.op = 0b10 → c.a = d.a ∧ c.b = d.b)

end Sys2Proof

namespace Sys2Proof.Machine

/-- `increment` is odd whenever an instance exists (R11). -/
def State.oddIncrement (s : State) : Bool := s.engine.all fun e => e.increment.toNat % 2 == 1

/-- A refusal carries data 0 (R43, R80). -/
def State.errorsCarryNothing (s : State) : Bool :=
  s.rsp.all fun r => !r.isError || r.data == 0

/-- A response is produced before the block is ready again, so a response seen is of a block that is ready (R22, R31). -/
def State.respondedIsReady (s : State) : Bool := !s.rspValid || s.cmdReady

/-- The entropy value is taken before the clock value, each once a construction (R26, R30). -/
def State.drawsInOrder (s : State) : Bool := (!s.clkTake || s.entTake) && decide (s.clkReads ≤ s.entReads)

/-- The invariant that every step keeps. -/
def State.inv (s : State) : Bool :=
  s.oddIncrement && s.errorsCarryNothing && s.respondedIsReady && s.drawsInOrder

/-- The invariant, as a proposition. -/
abbrev State.Inv (s : State) : Prop := s.inv = true

/-- The latest step received no error status: the premise a claim about a stream takes (U1, R83). -/
def State.noError (s : State) : Bool := s.rsp.all fun r => !r.isError

/-- `MULT` as an integer (R5). -/
def multNat : Nat := 6364136223846793005

/-- The formula of `incr_of` on unbounded integers (R52). -/
def incrNat (incseed : Nat) : Nat := ((incseed <<< 1) ||| 1) % 2 ^ 64

/-- The formula of `lcg_step` on unbounded integers (R53). -/
def lcgNat (s inc : Nat) : Nat := (multNat * s + inc) % 2 ^ 64

/-- The formula of `xorshifted_of` on unbounded integers (R54). -/
def xorshiftedNat (old : Nat) : Nat := (((old >>> 18) ^^^ old) >>> 27) % 2 ^ 32

/-- The document's formula of the rotate on unbounded integers, without a branch (R56). -/
def rorNat (x r : Nat) : Nat := ((x >>> r) ||| (x <<< (32 - r))) % 2 ^ 32

/-- The formula of the raw output on unbounded integers (R65 steps 3 to 5). -/
def outNat (old : Nat) : Nat := rorNat (xorshiftedNat old) (old >>> 59)

/-- The state after `n` congruential steps (R67, the sequence `s_k`). -/
def stateAfter (inc : Word) : Nat → Word → Word
  | 0, s => s
  | n + 1, s => stateAfter inc n (lcgStep s inc)

/-- The step of `s` accepts the command `c` and runs it to its end (R22). -/
def State.accepts (s : State) (c : Command) : Prop := s.rstNow = .low ∧ s.cmds.head? = some c

/-- The step of `s` accepts no command, or abandons the one it accepts (R34, R95). -/
def State.acceptsNone (s : State) : Prop := s.rstNow ≠ .low ∨ s.cmds = []

end Sys2Proof.Machine
end

