-- ==== Sys2Proof/Certificates/Slice0/Obligations.lean ====
section
/-! DEFINITION. The statements for the provers. Each docstring names the rules of spec/ it formalises. -/

open Sys2Proof Sys2Proof.Machine

/-! ## Encoding -/

/-- The command words 95_test_vectors.md prints decode to the commands it prints beside them. -/
def Obligations.SampleCommandWordsDecode : Prop :=
  decode (Command.ofWord 0x3000000000000002A0000000000000036) = .new (some 42) (some 54) ∧
    decode (Command.ofWord 0x400000000000000000000000000000000) = .nextU32 ∧
    decode (Command.ofWord 0x800000000000000010000000000000006) = .nextRange 1 6 ∧
    decode (Command.ofWord 0x8FFFFFFFFFFFFFFFB0000000000000005) = .nextRange (-5) 5 ∧
    decode (Command.ofWord 0x000000000000000000000000000000000) = .new none none ∧
    decode (Command.ofWord 0xC00000000000000000000000000000000) = .reserved

/-- R35: `ctl = {op, sp, ip}`; `cw = {ctl, a, b}` in bits 131:128, 127:64 and 63:0, nothing lost either way; the `op`
field alone tells the operation. -/
def Obligations.CommandWordLayout : Prop :=
  (∀ c : Command, c.ctl = c.op ++ BitVec.ofBool c.sp ++ BitVec.ofBool c.ip ∧
      c.op = c.ctl.extractLsb' 2 2 ∧ c.sp = c.ctl.getLsbD 1 ∧ c.ip = c.ctl.getLsbD 0 ∧
      c.toWord.extractLsb' 128 4 = c.ctl ∧ c.toWord.extractLsb' 64 64 = c.a ∧ c.toWord.extractLsb' 0 64 = c.b ∧
      Command.ofWord c.toWord = c ∧ (decode c).opField = c.op) ∧
    ∀ cw : BitVec 132, (Command.ofWord cw).toWord = cw

/-- R36, R47: a command selects a row when `ctl & mask = match`; the rows partition the values of `ctl`, and the four
forms of NEW are its four low values. -/
def Obligations.TableRowsPartitionControl : Prop :=
  ∀ c : Command,
    (c.ctl &&& 0b1100 = 0b0000 ↔ ∃ seed inc, decode c = .new seed inc) ∧
    (c.ctl &&& 0b1100 = 0b0100 ↔ decode c = .nextU32) ∧
    (c.ctl &&& 0b1100 = 0b1000 ↔ ∃ low high, decode c = .nextRange low high) ∧
    (c.ctl &&& 0b1100 = 0b1000 → decode c = .nextRange c.a.toInt c.b.toInt) ∧
    (c.ctl &&& 0b1100 = 0b1100 ↔ decode c = .reserved) ∧
    (c.ctl = 0b0000 → decode c = .new none none) ∧
    (c.ctl = 0b0001 → decode c = .new none (some c.b)) ∧
    (c.ctl = 0b0010 → decode c = .new (some c.a) none) ∧
    (c.ctl = 0b0011 → decode c = .new (some c.a) (some c.b))

/-- R44: the decoding procedure, the encodings, `decode(encode(i)) = i` for every well-formed instruction, and
`encode(decode(c)) = c` for the canonical commands and no others. -/
def Obligations.DecodeAndEncodeAgree : Prop :=
  (∀ c : Command, decode c =
      match c.op with
      | 0b00 => .new (if c.sp then some c.a else none) (if c.ip then some c.b else none)
      | 0b01 => .nextU32
      | 0b10 => .nextRange c.a.toInt c.b.toInt
      | 0b11 => .reserved) ∧
    (∀ seed inc : Option Word, encode (.new seed inc) =
      { ctl := (0b00 : BitVec 2) ++ BitVec.ofBool seed.isSome ++ BitVec.ofBool inc.isSome,
        a := seed.getD 0, b := inc.getD 0 }) ∧
    encode .nextU32 = { ctl := 0b0100, a := 0, b := 0 } ∧
    (∀ low high : Int, encode (.nextRange low high) =
      { ctl := 0b1000, a := BitVec.ofInt 64 low, b := BitVec.ofInt 64 high }) ∧
    (∀ i : Instr, i.WellFormed → decode (encode i) = i) ∧
    (∀ c : Command, encode (decode c) = c ↔ c.canonical = true)

/-- R38: the bounds the decoder reads are 64-bit signed integers, so every decoded instruction is well-formed; and every
well-formed instruction is the reading of some command. -/
def Obligations.DecodedExactlyTheWellFormed : Prop :=
  ∀ i : Instr, i.WellFormed ↔ ∃ c : Command, decode c = i

/-- R39: the bits an instruction ignores select nothing and are stored nowhere: presented with either of two commands
that agree on the used bits, a machine takes the same step; and the canonical encoding has every ignored bit 0. -/
def Obligations.IgnoredBitsSelectNothing : Prop :=
  (∀ (s : State) (c d : Command), c.sameUsedBits d → step (s.present c) = step (s.present d)) ∧
    ∀ i : Instr, (encode i).canonical = true

/-- R41, R42: the response word is `{status, data}`, and the four status codes are the four two-bit values. -/
def Obligations.ResponseWordLayout : Prop :=
  (∀ r : Response, r.toWord.extractLsb' 64 2 = r.status.code ∧ r.toWord.extractLsb' 0 64 = r.data) ∧
    Status.ok.code = 0b00 ∧ Status.errNoEngine.code = 0b01 ∧ Status.errInvalidRange.code = 0b10 ∧
    Status.errReservedOp.code = 0b11

/-! ## Datapath -/

/-- R52: `incr_of` is `((incseed << 1) | 1) mod 2^64` on unbounded integers; in bits `{incseed[62:0], 1}`; always odd;
two increment seeds give the same increment exactly when they agree below bit 63; the corner cases. -/
def Obligations.IncrementIsShiftedAndForcedOdd : Prop :=
  (∀ x : Word, (incrOf x).toNat = ((x.toNat <<< 1) ||| 1) % 2 ^ 64 ∧
      incrOf x = x.extractLsb' 0 63 ++ (1 : BitVec 1) ∧ (incrOf x).toNat % 2 = 1) ∧
    (∀ x y : Word, incrOf x = incrOf y ↔ x.extractLsb' 0 63 = y.extractLsb' 0 63) ∧
    (∀ z : Word, z.toNat % 2 = 1 → ∃ x, incrOf x = z) ∧
    incrOf 0 = 1 ∧ incrOf 1 = 3 ∧ incrOf 54 = 109 ∧ incrOf 0x8000000000000000 = 1 ∧
    incrOf 0xFFFFFFFFFFFFFFFF = 0xFFFFFFFFFFFFFFFF

/-- R53: `lcg_step` is `(s * MULT + inc) mod 2^64` on unbounded integers, for every `inc`; a bijection of the state for
each `inc`; the corner cases. -/
def Obligations.CongruentialStepIsModularAndBijective : Prop :=
  (∀ s inc : Word, (lcgStep s inc).toNat = (6364136223846793005 * s.toNat + inc.toNat) % 2 ^ 64) ∧
    (∀ inc : Word, Function.Bijective fun s => lcgStep s inc) ∧
    (∀ inc : Word, lcgStep 0 inc = inc ∧ (lcgStep 1 inc).toNat = (6364136223846793005 + inc.toNat) % 2 ^ 64 ∧
      lcgStep 0xFFFFFFFFFFFFFFFF inc = inc - 0x5851F42D4C957F2D) ∧
    (∀ s : Word, 3 ≤ s.toNat → 2 ^ 64 ≤ 6364136223846793005 * s.toNat) ∧
    lcgStep 0xFFFFFFFFFFFFFFFF 1 = 0xA7AE0BD2B36A80D4 ∧ lcgStep 42 109 = 0x7D720F6E9086DDCF

/-- R54: `xorshifted_of` on unbounded integers; each result bit in terms of the bits of `old`; bits 26 to 0 do not
reach the result; the corner cases. -/
def Obligations.XorshiftSelectsBits : Prop :=
  (∀ old : Word, (xorshiftedOf old).toNat = (((old.toNat >>> 18) ^^^ old.toNat) >>> 27) % 2 ^ 32 ∧
      ((old.toNat >>> 18) ^^^ old.toNat) >>> 27 < 2 ^ 37) ∧
    (∀ (old : Word) (k : Nat), k < 32 → (xorshiftedOf old).getLsbD k =
      if k ≤ 18 then Bool.xor (old.getLsbD (k + 27)) (old.getLsbD (k + 45)) else old.getLsbD (k + 27)) ∧
    (∀ old old' : Word, old >>> 27 = old' >>> 27 → xorshiftedOf old = xorshiftedOf old') ∧
    (∀ old : Word, old.toNat < 2 ^ 27 → xorshiftedOf old = 0) ∧
    xorshiftedOf 0x8000000 = 1 ∧ xorshiftedOf 0x8000000000000000 = 0x40000 ∧
    xorshiftedOf 0xFFFFFFFFFFFFFFFF = 0xFFF80000

/-- R56: `ror32` with its explicit branch at 0, on unbounded integers; the unbranched formula agrees; each result bit;
the corner cases. -/
def Obligations.RotateRightWithinThirtyTwoBits : Prop :=
  (∀ (x : Half) (r : Rot), (ror32 x r).toNat =
      if r.toNat = 0 then x.toNat else ((x.toNat >>> r.toNat) ||| (x.toNat <<< (32 - r.toNat))) % 2 ^ 32) ∧
    (∀ (x : Half) (r : Rot),
      (ror32 x r).toNat = ((x.toNat >>> r.toNat) ||| (x.toNat <<< (32 - r.toNat))) % 2 ^ 32) ∧
    (∀ (x : Half) (r : Rot) (k : Nat), k < 32 → (ror32 x r).getLsbD k = x.getLsbD ((k + r.toNat) % 32)) ∧
    (∀ r : Rot, ror32 0 r = 0 ∧ ror32 0xFFFFFFFF r = 0xFFFFFFFF) ∧
    ror32 1 1 = 0x80000000 ∧ ror32 0x80000001 31 = 3 ∧ ror32 0x12345678 16 = 0x56781234

/-- R55, R57: the rotate amount is the top five bits, 0 to 31, of the state before the advance; the output permutation
is the rotate of the xorshift, a function of that state only, and not injective; the corner cases. -/
def Obligations.OutputPermutationOfTheOldState : Prop :=
  (∀ old : Word, (rotOf old).toNat = old.toNat >>> 59 ∧ rotOf old = old.extractLsb' 59 5 ∧
      xshRr old = ror32 (xorshiftedOf old) (rotOf old) ∧ (xshRr old).toNat = outNat old.toNat) ∧
    (∀ e : Engine, (nextOutput e).1 = xshRr e.state) ∧
    (∀ old : Word, old.toNat < 2 ^ 27 → xshRr old = 0) ∧
    (∀ old : Word, old.toNat < 2 ^ 59 → xshRr old = xorshiftedOf old) ∧
    (∃ old old' : Word, old ≠ old' ∧ xshRr old = xshRr old') ∧
    xshRr 0x07FFFFFFFFFFFFFF = 0xFFFFC000 ∧ xshRr 0x0123456789ABCDEF = 0x2468A5EB ∧
    xshRr 0xFFFFFFFFFFFFFFFF = 0xFFF00001 ∧ xshRr 0x8000000000000000 = 4 ∧ xshRr 0x7D720F6E9086DDCF = 0x0C855C84

/-- R58: for bounds in order the span is 1 to 2^64, the remainder is below the span and at most `r`, and the result lies
within the bounds; the form for a 64-bit datapath gives the pattern of the same result; the corner cases. -/
def Obligations.RangeMapperStaysInRange : Prop :=
  (∀ (r : Half) (low high : Int), low ≤ high →
      rangeMap r low high = low + (r.toNat : Int) % (high - low + 1) ∧ 1 ≤ high - low + 1 ∧
      0 ≤ (r.toNat : Int) % (high - low + 1) ∧ (r.toNat : Int) % (high - low + 1) < high - low + 1 ∧
      (r.toNat : Int) % (high - low + 1) ≤ r.toNat ∧ low ≤ rangeMap r low high ∧ rangeMap r low high ≤ high) ∧
    (∀ (r : Half) (a b : Word), a.toInt ≤ b.toInt →
      b.toInt - a.toInt + 1 ≤ 2 ^ 64 ∧ rangeMap64 r a b = BitVec.ofInt 64 (rangeMap r a.toInt b.toInt) ∧
      (rangeMap64 r a b).toInt = rangeMap r a.toInt b.toInt) ∧
    (∀ (r : Half) (v : Int), rangeMap r v v = v) ∧
    (∀ (r : Half) (low : Int), rangeMap r low (low + 4294967295) = low + r.toNat) ∧
    (∀ low : Int, rangeMap 0xFFFFFFFF low (low + 4294967294) = low) ∧
    (∀ r : Half, rangeMap r minS64 maxS64 = minS64 + r.toNat) ∧
    rangeMap 0xDEADBEEF (-100) (-1) = -41 ∧ rangeMap 0x0C855C84 1 6 = 1

/-! ## NEW -/

/-- R61, R62, R63: for every seed and increment seed, present or absent, in every state, NEW completes; the seed is the
supplied one or the sum of the two ports modulo 2^64, the increment seed the supplied one or 1, the state is advanced
once, and the response is `(OK, 0)`; a draw happens exactly when the seed is absent; and the first NEXT_U32 after it answers
the output of the primed state, not of the seed (R102). -/
def Obligations.NewConstructsAndPrimes : Prop :=
  ∀ (seed inc : Option Word) (s : State),
    let seed64 : Nat := (seed.map BitVec.toNat).getD ((s.entValue.toNat + s.clkTicks.toNat) % 2 ^ 64)
    let increment : Nat := incrNat ((inc.map BitVec.toNat).getD 1)
    ∃ t, exec (.new seed inc) s = .next t ∧ t.init = true ∧ t.rsp = some { status := .ok, data := 0 } ∧
      t.engine.map (fun e => e.increment.toNat) = some increment ∧
      t.engine.map (fun e => e.state.toNat) = some (lcgNat seed64 increment) ∧
      t.entReads = s.entReads + (if seed.isNone then 1 else 0) ∧
      t.clkReads = s.clkReads + (if seed.isNone then 1 else 0) ∧
      ∃ u, exec .nextU32 t = .next u ∧ u.rsp.map Response.status = some .ok ∧
        u.rsp.map (fun r => r.data.toNat) = some (outNat (lcgNat seed64 increment))

/-- R24, R25: the ports show the next integer the collaborator hands over, reduced modulo 2^64, so a narrower one
zero-extended; each taken value is gone for the next draw. -/
def Obligations.CollaboratorIntegersAtThePorts : Prop :=
  ∀ (s : State) (e c : Nat) (es cs : List (Option Nat)) (inc : Option Word), s.entIn = some e :: es → s.clkIn = some c :: cs →
    s.entValue.toNat = e % 2 ^ 64 ∧ s.clkTicks.toNat = c % 2 ^ 64 ∧
      ∃ t, exec (.new none inc) s = .next t ∧ t.entIn = es ∧ t.clkIn = cs ∧
        t.engine.map (fun g => g.state.toNat) =
          some (lcgNat ((e + c) % 2 ^ 64) (incrNat ((inc.map BitVec.toNat).getD 1)))

/-- R64: NEW is accepted with or without an instance, always answers OK, and nothing of the old instance is in the new
one. -/
def Obligations.NewForgetsTheOldInstance : Prop :=
  ∀ (seed inc : Option Word) (s : State) (old old' : Option Engine),
    exec (.new seed inc) { s with engine := old } = exec (.new seed inc) { s with engine := old' } ∧
      ∃ t, exec (.new seed inc) { s with engine := old } = .next t ∧ t.rsp.map Response.status = some .ok ∧
        t.init = true

/-! ## NEXT_U32 and NEXT_RANGE -/

/-- R65: with an instance NEXT_U32 completes: the response is the raw output of the state before the advance,
zero-extended, `state` is advanced by one step, and nothing else changes but the response port. -/
def Obligations.NextU32AnswersTheOldStatesOutput : Prop :=
  ∀ (s : State) (e : Engine), s.engine = some e →
    exec .nextU32 s = .next { s with
      engine := some { state := BitVec.ofNat 64 (lcgNat e.state.toNat e.increment.toNat), increment := e.increment },
      rsp := some { status := .ok, data := BitVec.ofNat 64 (outNat e.state.toNat) },
      cmdReady := true } ∧ outNat e.state.toNat < 2 ^ 32

/-- R66: without an instance NEXT_U32 is refused with `(ErrNoEngine, 0)` and no register changes. -/
def Obligations.NextU32RefusedWithoutEngine : Prop :=
  ∀ s : State, s.engine = none →
    exec .nextU32 s = .next { s with rsp := some { status := .errNoEngine, data := 0 }, cmdReady := true }

/-- R72: with an instance and bounds in order NEXT_RANGE completes: one output drawn and one step taken as by NEXT_U32,
and the response is the pattern of `low + (r mod (high − low + 1))` on unbounded integers. -/
def Obligations.NextRangeMapsOneOutput : Prop :=
  ∀ (s : State) (e : Engine) (low high : Int), s.engine = some e → low ≤ high →
    exec (.nextRange low high) s = .next { s with
      engine := some { state := BitVec.ofNat 64 (lcgNat e.state.toNat e.increment.toNat), increment := e.increment },
      rsp := some { status := .ok,
                    data := BitVec.ofInt 64 (low + (outNat e.state.toNat : Int) % (high - low + 1)) },
      cmdReady := true }

/-- R71: NEXT_RANGE is refused without an instance whatever the bounds are, and with an instance when `low > high` as
signed numbers; nothing changes; the bounds of a command are the signed readings of its operands. -/
def Obligations.NextRangeRefusals : Prop :=
  (∀ (s : State) (low high : Int), s.engine = none →
      exec (.nextRange low high) s =
        .next { s with rsp := some { status := .errNoEngine, data := 0 }, cmdReady := true }) ∧
    (∀ (s : State) (e : Engine) (low high : Int), s.engine = some e → high < low →
      exec (.nextRange low high) s =
        .next { s with rsp := some { status := .errInvalidRange, data := 0 }, cmdReady := true }) ∧
    (∀ c : Command, c.op = 0b10 → decode c = .nextRange c.a.toInt c.b.toInt) ∧
    (0xFFFFFFFFFFFFFFFB : Word).toInt = -5 ∧ (5 : Word).toInt = 5

/-- R75: for bounds in order, read from a command, the response read as a signed number lies within the bounds. -/
def Obligations.NextRangeStaysWithinBounds : Prop :=
  ∀ (s : State) (e : Engine) (c : Command), s.engine = some e → c.op = 0b10 → c.a.toInt ≤ c.b.toInt →
    ∃ t d, exec (decode c) s = .next t ∧ t.rsp = some { status := .ok, data := d } ∧
      c.a.toInt ≤ d.toInt ∧ d.toInt ≤ c.b.toInt

/-- R73, R74: NEXT_RANGE answers the remainder of exactly what a NEXT_U32 in its place would have answered, and leaves
exactly the state that NEXT_U32 would have left, whatever the bounds, so nothing of the bounds is kept; with a span above 2^32 only the lowest 2^32 values
of the range are answered. -/
def Obligations.NextRangeIsNextU32Reduced : Prop :=
  ∀ (s t : State) (low high : Int) (d : Word), exec .nextU32 s = .next t → t.rsp = some { status := .ok, data := d } →
    low ≤ high →
    exec (.nextRange low high) s = .next { t with
      rsp := some { status := .ok, data := BitVec.ofInt 64 (low + (d.toNat : Int) % (high - low + 1)) } } ∧
    (2 ^ 32 < high - low + 1 → low + (d.toNat : Int) % (high - low + 1) < low + 2 ^ 32)

/-- R76: the corner cases of NEXT_RANGE, each on every engine: `low = high`; the full range; a span of 2^32; a span of
2^32 − 1 at the largest output; `high = low − 1`; the extreme reversed bounds; the top of the range. -/
def Obligations.NextRangeCornerCases : Prop :=
  (∀ (s : State) (e : Engine), s.engine = some e →
      (∀ v : Int, ∃ t, exec (.nextRange v v) s = .next t ∧
        t.rsp = some { status := .ok, data := BitVec.ofInt 64 v } ∧
        t.engine = some { state := lcgStep e.state e.increment, increment := e.increment }) ∧
      (∃ t, exec (.nextRange (-2 ^ 63) (2 ^ 63 - 1)) s = .next t ∧
        t.rsp = some { status := .ok, data := 0x8000000000000000 + (xshRr e.state).setWidth 64 }) ∧
      (∀ low : Int, ∃ t, exec (.nextRange low (low + 2 ^ 32 - 1)) s = .next t ∧
        t.rsp = some { status := .ok, data := BitVec.ofInt 64 (low + (xshRr e.state).toNat) }) ∧
      (∀ low : Int, ∃ t, exec (.nextRange low (low - 1)) s = .next t ∧ t.engine = s.engine ∧
        t.rsp = some { status := .errInvalidRange, data := 0 }) ∧
      (∃ t, exec (decode { ctl := 0b1000, a := 0x7FFFFFFFFFFFFFFF, b := 0x8000000000000000 }) s = .next t ∧
        t.engine = s.engine ∧ t.rsp = some { status := .errInvalidRange, data := 0 })) ∧
    (∀ low : Int, rangeMap 0xFFFFFFFF low (low + 2 ^ 32 - 2) = low) ∧
    (∀ r : Half, rangeMap r (2 ^ 63 - 11) (2 ^ 63 - 1) ≤ 2 ^ 63 - 1 ∧
      (BitVec.ofInt 64 (rangeMap r (2 ^ 63 - 11) (2 ^ 63 - 1))).toInt = rangeMap r (2 ^ 63 - 11) (2 ^ 63 - 1))

/-- R16, R54, R57: neither `increment` nor bits 26 to 0 of `state` can be told from a response: two engines that agree
on bits 63 to 27 of `state` answer a NEXT_U32, and a NEXT_RANGE with any bounds, alike. -/
def Obligations.ResponsesHideIncrementAndLowState : Prop :=
  ∀ (s : State) (e e' : Engine), e.state >>> 27 = e'.state >>> 27 →
    ∀ i : Instr, (i = .nextU32 ∨ ∃ low high, i = .nextRange low high) →
      ∃ t t', exec i { s with engine := some e } = .next t ∧ exec i { s with engine := some e' } = .next t' ∧
        t.rsp = t'.rsp

/-! ## The reserved operation and errors -/

/-- R84: a command whose `op` field is `0b11` is refused with `(ErrReservedOp, 0)` in either condition of `init`,
whatever its other bits are, and changes nothing. -/
def Obligations.ReservedCommandRefused : Prop :=
  (∀ s : State, exec .reserved s =
      .next { s with rsp := some { status := .errReservedOp, data := 0 }, cmdReady := true }) ∧
    ∀ (s : State) (c : Command), c.op = 0b11 → ∃ t, step (s.present c) = .next t ∧ t.engine = s.engine ∧
      t.rsp = some { status := .errReservedOp, data := 0 }

/-- R81, R87: the status of every command accepted, by the one priority: reserved operation, then no engine, then
invalid range, else OK. -/
def Obligations.StatusOfEveryCommand : Prop :=
  ∀ (s : State) (c : Command), s.accepts c →
    ∃ t, step s = .next t ∧ t.rsp.map Response.status = some
      (if c.op = 0b11 then .errReservedOp
        else if c.op ≠ 0b00 ∧ s.engine = none then .errNoEngine
        else if c.op = 0b10 ∧ c.b.toInt < c.a.toInt then .errInvalidRange
        else .ok)

/-- R80, R88: a refused command has no effect at all: the step leaves exactly the state before it, but that the command
is gone from the port and its response, the error's code with data 0, is on the response port. -/
def Obligations.RefusedCommandChangesNothing : Prop :=
  ∀ (s t : State) (r : Response), step s = .next t → t.rsp = some r → r.status ≠ .ok →
    t = { s with rsp := some { status := r.status, data := 0 }, cmdReady := true, entTake := false, clkTake := false,
                 rstIn := s.rstIn.tail, cmds := s.cmds.tail }

/-- R89: errors are not sticky: after a refused command the next step is exactly what it would have been, had the
refused command never been sent. -/
def Obligations.ErrorsAreNotSticky : Prop :=
  ∀ (s t : State), step s = .next t → t.noError = false →
    step t = step { s with rstIn := s.rstIn.tail, cmds := s.cmds.tail }

/-! ## The whole machine -/

/-- R31: a step that accepts a command is exactly the execution of the decoded instruction, on the state with the
command taken from the port, the reset input moved on, and the one-step events of the step before over. -/
def Obligations.StepRunsTheDecodedInstruction : Prop :=
  ∀ (s : State) (c : Command) (rest : List Command), s.rstNow = .low → s.cmds = c :: rest →
    step s = exec (decode c) { s with
      rstIn := s.rstIn.tail, cmds := rest, rsp := none, entTake := false, clkTake := false, cmdReady := false }

/-- The command placed by `withFetchWord` is the one the next step decodes and executes, from any state (log entries 12
and 13: the model's numbering of table bits and the model's way of presenting a command). -/
def Obligations.PlacedWordRunsNext : Prop :=
  ∀ (s : State) (nbits w : Nat) (i : Instr), decodeTableWord nbits w = some i →
    step (s.withFetchWord nbits w) =
      exec i { s with rsp := none, entTake := false, clkTake := false, cmdReady := false }

/-- R109: every step has a next state; a command accepted always gets its response; a step without a command under
`rst` low holds the engine and makes no draw (the idle step is the model's, log entry 7). -/
def Obligations.EveryStepCompletes : Prop :=
  ∀ s : State, ∃ t, step s = .next t ∧
    (∀ c, s.accepts c → t.rspValid = true) ∧
    (s.rstNow = .low → s.cmds = [] → t.engine = s.engine ∧ t.entReads = s.entReads ∧ t.clkReads = s.clkReads)

/-- R22, R23: exactly one response for each command accepted and run, none without; the command port moves on by that
command and no other; after the response the block is ready. -/
def Obligations.OneResponsePerAcceptedCommand : Prop :=
  ∀ s t : State, step s = .next t →
    (∀ c, s.accepts c → t.rspValid = true ∧ t.cmdReady = true ∧ s.cmds = c :: t.cmds) ∧
    (s.acceptsNone → t.rspValid = false) ∧
    (s.acceptsNone ∨ ∃ c, s.accepts c)

/-- R12: `init` is set by NEW and by nothing else, and cleared by the reset input and by nothing else. -/
def Obligations.InitSetByNewClearedByReset : Prop :=
  ∀ s t : State, step s = .next t →
    (s.rstNow ≠ .low → t.init = false) ∧
    (∀ c, s.accepts c → c.op = 0b00 → t.init = true) ∧
    (s.init = false → t.init = true → ∃ c, s.accepts c ∧ c.op = 0b00) ∧
    (s.init = true → t.init = false → s.rstNow ≠ .low)

/-- R10: a step with `rst` low and without a NEW advances `state` by exactly one congruential step if it accepts a
command that draws an output, and otherwise leaves it; `increment` is the same in either case (R11). -/
def Obligations.EngineAdvancesOnlyByDrawnOutputs : Prop :=
  ∀ (s t : State) (e : Engine), step s = .next t → s.rstNow = .low → s.engine = some e →
    (∀ c, s.accepts c → c.op ≠ 0b00 → t.engine = some
      { state := if c.drawsOutput then lcgStep e.state e.increment else e.state, increment := e.increment }) ∧
    (s.cmds = [] → t.engine = some e)

/-- R26, R30, R104: a step takes one entropy value and one clock value if it accepts and runs a NEW without a seed; if
`rst` rises after `k` draws of such a NEW, it takes the first `k` of the two, entropy before clock, each at most once
(the number is an input of the model, log entry 9); every other step, whatever `rst` does, takes none. -/
def Obligations.DrawsOnlyByDefaultSeededNew : Prop :=
  ∀ s t : State, step s = .next t →
    (∀ c, s.accepts c → c.op = 0b00 → c.sp = false →
      t.entReads = s.entReads + 1 ∧ t.clkReads = s.clkReads + 1 ∧ t.entTake = true ∧ t.clkTake = true ∧
      t.entIn = s.entIn.tail ∧ t.clkIn = s.clkIn.tail) ∧
    (∀ k c, s.rstNow = .rises k → s.cmds.head? = some c → c.op = 0b00 → c.sp = false →
      t.entReads = s.entReads + min k 1 ∧ t.clkReads = s.clkReads + min (k - 1) 1 ∧
      t.entTake = decide (1 ≤ k) ∧ t.clkTake = decide (2 ≤ k) ∧
      t.entIn = s.entIn.drop (min k 1) ∧ t.clkIn = s.clkIn.drop (min (k - 1) 1)) ∧
    ((s.rstNow = .high ∨ ∀ c, s.cmds.head? = some c → ¬(c.op = 0b00 ∧ c.sp = false)) →
      t.entReads = s.entReads ∧ t.clkReads = s.clkReads ∧ t.entTake = false ∧ t.clkTake = false ∧
      t.entIn = s.entIn ∧ t.clkIn = s.clkIn)

/-- R26, R69: apart from the two draws an instruction is a function of the engine and its operands: the engine left and
the response do not depend on the entropy port, the clock port, or anything else, unless it is a NEW without a seed. -/
def Obligations.PureApartFromTheDraws : Prop :=
  ∀ (i : Instr) (s s' : State), s.engine = s'.engine → (∀ inc, i ≠ .new none inc) →
    ∃ t t', exec i s = .next t ∧ exec i s' = .next t' ∧ t.engine = t'.engine ∧ t.rsp = t'.rsp

/-- R9, R15, R29: what an instruction leaves unchanged: the host's commands and the reset input always; the entropy and
clock ports and their records unless it is a NEW without a seed; `increment` and `init` unless it is a NEW; the whole
engine if the response is an error or the instruction is the reserved one. There is no memory (R20). -/
def Obligations.InstructionFrame : Prop :=
  ∀ (i : Instr) (s t : State), exec i s = .next t →
    t.cmds = s.cmds ∧ t.rstIn = s.rstIn ∧
    ((∀ inc, i ≠ .new none inc) → t.entIn = s.entIn ∧ t.clkIn = s.clkIn ∧ t.entReads = s.entReads ∧
      t.clkReads = s.clkReads ∧ t.entTake = s.entTake ∧ t.clkTake = s.clkTake) ∧
    ((∀ seed inc, i ≠ .new seed inc) →
      t.engine.map Engine.increment = s.engine.map Engine.increment ∧ t.init = s.init) ∧
    (t.noError = false → t.engine = s.engine) ∧ (i = .reserved → t.engine = s.engine)

/-- R95: a step with `rst` high leaves the block unconstructed, accepts no command, answers none and makes no draw; a
command in execution when `rst` rises is abandoned without a response; no other step makes a constructed block
unconstructed. -/
def Obligations.ResetInputUnconstructs : Prop :=
  ∀ s t : State, step s = .next t →
    (s.rstNow = .high → t.engine = none ∧ t.cmdReady = false ∧ t.rsp = none ∧ t.entTake = false ∧
      t.clkTake = false ∧ t.cmds = s.cmds ∧ t.entReads = s.entReads ∧ t.clkReads = s.clkReads) ∧
    (∀ k, s.rstNow = .rises k → t.engine = none ∧ t.cmdReady = false ∧ t.rsp = none) ∧
    (s.init = true → t.init = false → s.rstNow ≠ .low)

/-- R18, R97: after reset `init` is 0, `state` and `increment` have no value, the block can accept a command, no
response is valid and neither take strobe is up. -/
def Obligations.ResetStateValues : Prop :=
  State.reset.init = false ∧ State.reset.engine = none ∧ State.reset.cmdReady = true ∧
    State.reset.rspValid = false ∧ State.reset.entTake = false ∧ State.reset.clkTake = false

/-- R83, R98: any sequence of NEXT_U32, NEXT_RANGE and reserved commands leaves an unconstructed block unconstructed, with
no draw made, and the last of the sequence, hence every one of them, is refused. -/
def Obligations.NothingRunsBeforeNew : Prop :=
  ∀ (cs rest : List Command) (s : State), s.engine = none → (∀ r ∈ s.rstIn, r = .low) → s.cmds = cs ++ rest →
    (∀ c ∈ cs, c.op ≠ 0b00) →
    ∃ t : State, Host.Core.run core cs.length s = .next t ∧ t.engine = none ∧ t.cmds = rest ∧
      t.entReads = s.entReads ∧ t.clkReads = s.clkReads ∧ (cs ≠ [] → t.noError = false)

/-- R67: after any NEW, its seed supplied or drawn and its increment seed supplied or 1 (R61, R62), and then commands
without a further NEW and without a reset of which exactly n draw an output, `state` is `s_n`, for every such sequence of
commands and from every state; and the next command that draws an output draws `xsh_rr(s_n)`. -/
def Obligations.StateFollowsTheSequence : Prop :=
  ∀ (first : Command) (cs rest : List Command) (s : State),
    (∀ r ∈ s.rstIn, r = .low) → s.cmds = first :: (cs ++ rest) → first.op = 0b00 → (∀ c ∈ cs, c.op ≠ 0b00) →
    let seed64 : Word := if first.sp then first.a else s.entValue + s.clkTicks
    let inc : Word := incrOf (if first.ip then first.b else 1)
    let s_n : Word := stateAfter inc (cs.countP Command.drawsOutput) (lcgStep seed64 inc)
    ∃ t : State, Host.Core.run core (cs.length + 1) s = .next t ∧ t.cmds = rest ∧
      t.engine = some { state := s_n, increment := inc } ∧
      (∀ c cs', rest = c :: cs' → c.drawsOutput = true → ∃ u, step t = .next u ∧ u.rsp = some
        { status := .ok,
          data :=
            if c.op = 0b01 then (xshRr s_n).setWidth 64
            else BitVec.ofInt 64 (c.a.toInt + ((xshRr s_n).toNat : Int) % (c.b.toInt - c.a.toInt + 1)) })

/-- The model's reading of R45 (D26). R45's own words: the values of a `.draw` line are those that the next
default-seeded NEW after it draws. The rest is the model's choice (DESIGN CHOICE, log entry 22): that each command and
each `.reset` takes one step; that of two `.draw` lines before one NEW the later counts, which is the case where `before`
ends with an offer that no NEW has drawn; and that a default-seeded NEW without a `.draw` line before it draws the free
values of its reads (the second part; their form is log entry 4). -/
def Obligations.WrittenDrawGoesToTheNextDefaultSeededNew : Prop :=
  (∀ (s : State) (before between rest : List Line) (ent clk : Word) (inc : Option Word),
    (∀ l ∈ between, l.isDraw = false ∧ l.isDefaultSeeded = false) →
    ∃ t u : State,
      Host.Core.run core (lineSteps (before ++ between))
        (s.presentLines (before ++ .draw ent clk :: (between ++ .command (.new none inc) :: rest))) = .next t ∧
      t.accepts (encode (.new none inc)) ∧ t.entValue = ent ∧ t.clkTicks = clk ∧ step t = .next u ∧
      u.engine.map Engine.state = some (lcgStep (ent + clk) (incrOf (inc.getD 1)))) ∧
    ∀ (s : State) (before rest : List Line) (inc : Option Word), (∀ l ∈ before, l.isDraw = false) →
      ∃ t : State,
        Host.Core.run core (lineSteps before) (s.presentLines (before ++ .command (.new none inc) :: rest)) = .next t ∧
        t.accepts (encode (.new none inc)) ∧
        t.entValue = Config.freeEntropy t.entReads ∧ t.clkTicks = Config.freeClock t.clkReads

/-- R11, R22, R26, R43, R80: every step keeps the invariant: `increment` is odd whenever an instance exists; an error
carries data 0; a response is seen only of a block that is ready; the entropy value is drawn before the clock value. -/
def Obligations.StepKeepsTheInvariant : Prop :=
  ∀ s t : State, s.Inv → step s = .next t → t.Inv

/-- The invariant holds in the state after reset. -/
def Obligations.ResetMeetsTheInvariant : Prop := State.reset.Inv
end

