-- ==== Sys2Proof/Laws/Operands.lean ====
section
/-! SUPPORT. The signed reading and the pattern of an integer undo each other (R8, R38, R43); the fields of a command. -/

namespace Sys2Proof.Machine

/-- The pattern of the signed reading is the pattern. -/
@[simp] theorem u64_s64 (v : Word) : u64 (s64 v) = v := BitVec.ofInt_toInt

/-- What the check of a 64-bit signed integer says, in numerals. -/
theorem inS64_iff {v : Int} : inS64 v = true ↔ -9223372036854775808 ≤ v ∧ v ≤ 9223372036854775807 := by
  show (decide (minS64 ≤ v) && decide (v ≤ maxS64)) = true ↔ minS64 ≤ v ∧ v ≤ maxS64
  simp only [Bool.and_eq_true, decide_eq_true_eq]

/-- The signed reading of the pattern of a 64-bit signed integer is the integer. -/
theorem s64_u64 {v : Int} (h : inS64 v = true) : s64 (u64 v) = v := by
  rw [inS64_iff] at h
  simp only [s64, u64, BitVec.toInt_ofInt]
  exact Int.bmod_eq_of_le (by omega) (by omega)

/-- The signed reading of a pattern is a 64-bit signed integer. -/
theorem inS64_s64 (v : Word) : inS64 (s64 v) = true := by
  have h1 := v.le_toInt
  have h2 := v.toInt_lt
  rw [inS64_iff, s64]
  omega

@[simp] theorem optionOf_true (v : Word) : optionOf true v = some v := rfl
@[simp] theorem optionOf_false (v : Word) : optionOf false v = none := rfl

end Sys2Proof.Machine

namespace Sys2Proof

/-- What the decoder reads, by the `op` field alone (R44). -/
theorem decode_new {c : Command} (h : c.op = 0b00) :
    decode c = .new (Machine.optionOf c.sp c.a) (Machine.optionOf c.ip c.b) := by
  simp only [decode, h, if_true]

theorem decode_nextU32 {c : Command} (h : c.op = 0b01) : decode c = .nextU32 := by
  simp [decode, h]

theorem decode_nextRange {c : Command} (h : c.op = 0b10) :
    decode c = .nextRange (Machine.s64 c.a) (Machine.s64 c.b) := by
  simp [decode, h]

theorem decode_reserved {c : Command} (h : c.op = 0b11) : decode c = .reserved := by
  simp [decode, h]

/-- The `op` field has one of four values. -/
theorem Command.op_cases (c : Command) : c.op = 0b00 ∨ c.op = 0b01 ∨ c.op = 0b10 ∨ c.op = 0b11 := by
  generalize c.op = o
  revert o
  decide

end Sys2Proof
end

