-- ==== Sys2Proof/Laws/State.lean ====
section
/-! SUPPORT. One lemma per field per update of State, each true by rfl, so that no proof unfolds a record update. -/

namespace Sys2Proof.Machine

variable (s : State)

@[simp] theorem State.takeEntropy_engine : s.takeEntropy.engine = s.engine := rfl
@[simp] theorem State.takeEntropy_cmdReady : s.takeEntropy.cmdReady = s.cmdReady := rfl
@[simp] theorem State.takeEntropy_rsp : s.takeEntropy.rsp = s.rsp := rfl
@[simp] theorem State.takeEntropy_entTake : s.takeEntropy.entTake = true := rfl
@[simp] theorem State.takeEntropy_clkTake : s.takeEntropy.clkTake = s.clkTake := rfl
@[simp] theorem State.takeEntropy_rstIn : s.takeEntropy.rstIn = s.rstIn := rfl
@[simp] theorem State.takeEntropy_cmds : s.takeEntropy.cmds = s.cmds := rfl
@[simp] theorem State.takeEntropy_entIn : s.takeEntropy.entIn = s.entIn.tail := rfl
@[simp] theorem State.takeEntropy_clkIn : s.takeEntropy.clkIn = s.clkIn := rfl
@[simp] theorem State.takeEntropy_entReads : s.takeEntropy.entReads = s.entReads + 1 := rfl
@[simp] theorem State.takeEntropy_clkReads : s.takeEntropy.clkReads = s.clkReads := rfl

@[simp] theorem State.takeClock_engine : s.takeClock.engine = s.engine := rfl
@[simp] theorem State.takeClock_cmdReady : s.takeClock.cmdReady = s.cmdReady := rfl
@[simp] theorem State.takeClock_rsp : s.takeClock.rsp = s.rsp := rfl
@[simp] theorem State.takeClock_entTake : s.takeClock.entTake = s.entTake := rfl
@[simp] theorem State.takeClock_clkTake : s.takeClock.clkTake = true := rfl
@[simp] theorem State.takeClock_rstIn : s.takeClock.rstIn = s.rstIn := rfl
@[simp] theorem State.takeClock_cmds : s.takeClock.cmds = s.cmds := rfl
@[simp] theorem State.takeClock_entIn : s.takeClock.entIn = s.entIn := rfl
@[simp] theorem State.takeClock_clkIn : s.takeClock.clkIn = s.clkIn.tail := rfl
@[simp] theorem State.takeClock_entReads : s.takeClock.entReads = s.entReads := rfl
@[simp] theorem State.takeClock_clkReads : s.takeClock.clkReads = s.clkReads + 1 := rfl

@[simp] theorem State.setEngine_engine (e : Engine) : (s.setEngine e).engine = some e := rfl
@[simp] theorem State.setEngine_cmdReady (e : Engine) : (s.setEngine e).cmdReady = s.cmdReady := rfl
@[simp] theorem State.setEngine_rsp (e : Engine) : (s.setEngine e).rsp = s.rsp := rfl
@[simp] theorem State.setEngine_entTake (e : Engine) : (s.setEngine e).entTake = s.entTake := rfl
@[simp] theorem State.setEngine_clkTake (e : Engine) : (s.setEngine e).clkTake = s.clkTake := rfl
@[simp] theorem State.setEngine_rstIn (e : Engine) : (s.setEngine e).rstIn = s.rstIn := rfl
@[simp] theorem State.setEngine_cmds (e : Engine) : (s.setEngine e).cmds = s.cmds := rfl
@[simp] theorem State.setEngine_entIn (e : Engine) : (s.setEngine e).entIn = s.entIn := rfl
@[simp] theorem State.setEngine_clkIn (e : Engine) : (s.setEngine e).clkIn = s.clkIn := rfl
@[simp] theorem State.setEngine_entReads (e : Engine) : (s.setEngine e).entReads = s.entReads := rfl
@[simp] theorem State.setEngine_clkReads (e : Engine) : (s.setEngine e).clkReads = s.clkReads := rfl

@[simp] theorem State.answer_engine (st : Status) (d : Word) : (s.answer st d).engine = s.engine := rfl
@[simp] theorem State.answer_cmdReady (st : Status) (d : Word) : (s.answer st d).cmdReady = true := rfl
@[simp] theorem State.answer_rsp (st : Status) (d : Word) : (s.answer st d).rsp = some { status := st, data := d } := rfl
@[simp] theorem State.answer_entTake (st : Status) (d : Word) : (s.answer st d).entTake = s.entTake := rfl
@[simp] theorem State.answer_clkTake (st : Status) (d : Word) : (s.answer st d).clkTake = s.clkTake := rfl
@[simp] theorem State.answer_rstIn (st : Status) (d : Word) : (s.answer st d).rstIn = s.rstIn := rfl
@[simp] theorem State.answer_cmds (st : Status) (d : Word) : (s.answer st d).cmds = s.cmds := rfl
@[simp] theorem State.answer_entIn (st : Status) (d : Word) : (s.answer st d).entIn = s.entIn := rfl
@[simp] theorem State.answer_clkIn (st : Status) (d : Word) : (s.answer st d).clkIn = s.clkIn := rfl
@[simp] theorem State.answer_entReads (st : Status) (d : Word) : (s.answer st d).entReads = s.entReads := rfl
@[simp] theorem State.answer_clkReads (st : Status) (d : Word) : (s.answer st d).clkReads = s.clkReads := rfl

@[simp] theorem State.beginStep_engine : s.beginStep.engine = s.engine := rfl
@[simp] theorem State.beginStep_cmdReady : s.beginStep.cmdReady = true := rfl
@[simp] theorem State.beginStep_rsp : s.beginStep.rsp = none := rfl
@[simp] theorem State.beginStep_entTake : s.beginStep.entTake = false := rfl
@[simp] theorem State.beginStep_clkTake : s.beginStep.clkTake = false := rfl
@[simp] theorem State.beginStep_rstIn : s.beginStep.rstIn = s.rstIn.tail := rfl
@[simp] theorem State.beginStep_cmds : s.beginStep.cmds = s.cmds := rfl
@[simp] theorem State.beginStep_entIn : s.beginStep.entIn = s.entIn := rfl
@[simp] theorem State.beginStep_clkIn : s.beginStep.clkIn = s.clkIn := rfl
@[simp] theorem State.beginStep_entReads : s.beginStep.entReads = s.entReads := rfl
@[simp] theorem State.beginStep_clkReads : s.beginStep.clkReads = s.clkReads := rfl

@[simp] theorem State.accept_engine (cs : List Command) : (s.accept cs).engine = s.engine := rfl
@[simp] theorem State.accept_cmdReady (cs : List Command) : (s.accept cs).cmdReady = false := rfl
@[simp] theorem State.accept_rsp (cs : List Command) : (s.accept cs).rsp = s.rsp := rfl
@[simp] theorem State.accept_entTake (cs : List Command) : (s.accept cs).entTake = s.entTake := rfl
@[simp] theorem State.accept_clkTake (cs : List Command) : (s.accept cs).clkTake = s.clkTake := rfl
@[simp] theorem State.accept_rstIn (cs : List Command) : (s.accept cs).rstIn = s.rstIn := rfl
@[simp] theorem State.accept_cmds (cs : List Command) : (s.accept cs).cmds = cs := rfl
@[simp] theorem State.accept_entIn (cs : List Command) : (s.accept cs).entIn = s.entIn := rfl
@[simp] theorem State.accept_clkIn (cs : List Command) : (s.accept cs).clkIn = s.clkIn := rfl
@[simp] theorem State.accept_entReads (cs : List Command) : (s.accept cs).entReads = s.entReads := rfl
@[simp] theorem State.accept_clkReads (cs : List Command) : (s.accept cs).clkReads = s.clkReads := rfl

@[simp] theorem State.underReset_engine : s.underReset.engine = none := rfl
@[simp] theorem State.underReset_cmdReady : s.underReset.cmdReady = false := rfl
@[simp] theorem State.underReset_rsp : s.underReset.rsp = s.rsp := rfl
@[simp] theorem State.underReset_entTake : s.underReset.entTake = s.entTake := rfl
@[simp] theorem State.underReset_clkTake : s.underReset.clkTake = s.clkTake := rfl
@[simp] theorem State.underReset_rstIn : s.underReset.rstIn = s.rstIn := rfl
@[simp] theorem State.underReset_cmds : s.underReset.cmds = s.cmds := rfl
@[simp] theorem State.underReset_entIn : s.underReset.entIn = s.entIn := rfl
@[simp] theorem State.underReset_clkIn : s.underReset.clkIn = s.clkIn := rfl
@[simp] theorem State.underReset_entReads : s.underReset.entReads = s.entReads := rfl
@[simp] theorem State.underReset_clkReads : s.underReset.clkReads = s.clkReads := rfl

@[simp] theorem State.present_engine (c : Command) : (s.present c).engine = s.engine := rfl
@[simp] theorem State.present_cmdReady (c : Command) : (s.present c).cmdReady = s.cmdReady := rfl
@[simp] theorem State.present_rsp (c : Command) : (s.present c).rsp = s.rsp := rfl
@[simp] theorem State.present_entTake (c : Command) : (s.present c).entTake = s.entTake := rfl
@[simp] theorem State.present_clkTake (c : Command) : (s.present c).clkTake = s.clkTake := rfl
@[simp] theorem State.present_rstIn (c : Command) : (s.present c).rstIn = .low :: s.rstIn := rfl
@[simp] theorem State.present_cmds (c : Command) : (s.present c).cmds = c :: s.cmds := rfl
@[simp] theorem State.present_entIn (c : Command) : (s.present c).entIn = s.entIn := rfl
@[simp] theorem State.present_clkIn (c : Command) : (s.present c).clkIn = s.clkIn := rfl
@[simp] theorem State.present_entReads (c : Command) : (s.present c).entReads = s.entReads := rfl
@[simp] theorem State.present_clkReads (c : Command) : (s.present c).clkReads = s.clkReads := rfl

@[simp] theorem State.answer_init (st : Status) (d : Word) : (s.answer st d).init = s.init := rfl
@[simp] theorem State.setEngine_init (e : Engine) : (s.setEngine e).init = true := rfl
@[simp] theorem State.beginStep_init : s.beginStep.init = s.init := rfl
@[simp] theorem State.accept_init (cs : List Command) : (s.accept cs).init = s.init := rfl
@[simp] theorem State.underReset_init : s.underReset.init = false := rfl
@[simp] theorem State.takeEntropy_init : s.takeEntropy.init = s.init := rfl
@[simp] theorem State.takeClock_init : s.takeClock.init = s.init := rfl

@[simp] theorem State.answer_rspValid (st : Status) (d : Word) : (s.answer st d).rspValid = true := rfl
@[simp] theorem State.beginStep_rspValid : s.beginStep.rspValid = false := rfl
@[simp] theorem State.accept_rspValid (cs : List Command) : (s.accept cs).rspValid = s.rspValid := rfl
@[simp] theorem State.underReset_rspValid : s.underReset.rspValid = s.rspValid := rfl

/-- What the draws read is not changed by the events of the step before, nor by accepting a command. -/
@[simp] theorem State.beginStep_entValue : s.beginStep.entValue = s.entValue := rfl
@[simp] theorem State.beginStep_clkTicks : s.beginStep.clkTicks = s.clkTicks := rfl
@[simp] theorem State.accept_entValue (cs : List Command) : (s.accept cs).entValue = s.entValue := rfl
@[simp] theorem State.accept_clkTicks (cs : List Command) : (s.accept cs).clkTicks = s.clkTicks := rfl
@[simp] theorem State.takeEntropy_clkTicks : s.takeEntropy.clkTicks = s.clkTicks := rfl
@[simp] theorem State.present_rstNow (c : Command) : (s.present c).rstNow = .low := rfl

end Sys2Proof.Machine
end

