-- ==== Sys2Proof/Laws/Ops.lean ====
section
/-! SUPPORT. What each shared operation can do, said once: the draws, the advance, answering, refusing, abandoning; and
what each meaning answers. -/

namespace Sys2Proof.Machine

/-- Answering always gives a next state, and only the answered one. -/
theorem respond_eq_next {st : Status} {d : Word} {s t : State} : respond st d s = .next t ↔ t = s.answer st d := by
  simp only [respond, Host.Outcome.next.injEq]
  exact eq_comm

/-- A refusal changes the response port alone and carries data 0 (R80). -/
theorem raise_eq_next {e : Status} {s t : State} : raise e s = .next t ↔ t = s.answer e 0 := respond_eq_next

@[simp] theorem nextOutput_fst (e : Engine) : (nextOutput e).1 = xshRr e.state := rfl
@[simp] theorem nextOutput_snd (e : Engine) :
    (nextOutput e).2 = { state := lcgStep e.state e.increment, increment := e.increment } := rfl

@[simp] theorem chooseSeed_some (v : Word) (s : State) : chooseSeed (some v) s = (v, s) := rfl
@[simp] theorem chooseSeed_none (s : State) :
    chooseSeed none s = (s.entValue + s.clkTicks, s.takeEntropy.takeClock) := rfl

/-- Taking some of the draws leaves all but the entropy and clock ports and their records as they were. -/
theorem State.takeDraws_frame (s : State) (k : Nat) :
    (s.takeDraws k).engine = s.engine ∧ (s.takeDraws k).cmdReady = s.cmdReady ∧ (s.takeDraws k).rsp = s.rsp ∧
      (s.takeDraws k).rstIn = s.rstIn ∧ (s.takeDraws k).cmds = s.cmds := by
  match k with
  | 0 => exact ⟨rfl, rfl, rfl, rfl, rfl⟩
  | 1 => exact ⟨rfl, rfl, rfl, rfl, rfl⟩
  | _ + 2 => exact ⟨rfl, rfl, rfl, rfl, rfl⟩

/-- What taking the first `k` draws leaves of the entropy and clock ports and their records (R26). -/
theorem State.takeDraws_draws (s : State) (k : Nat) :
    (s.takeDraws k).entReads = s.entReads + min k 1 ∧ (s.takeDraws k).clkReads = s.clkReads + min (k - 1) 1 ∧
      (s.takeDraws k).entTake = (s.entTake || decide (1 ≤ k)) ∧
      (s.takeDraws k).clkTake = (s.clkTake || decide (2 ≤ k)) ∧
      (s.takeDraws k).entIn = s.entIn.drop (min k 1) ∧ (s.takeDraws k).clkIn = s.clkIn.drop (min (k - 1) 1) := by
  match k with
  | 0 => simp [State.takeDraws]
  | 1 => simp [State.takeDraws]
  | k + 2 => simp [State.takeDraws]

/-- Abandoning is reset after the command left the port and, if it draws, after some of its draws (R95). -/
theorem State.abandon_cases (s : State) (k : Nat) :
    (s.cmds = [] ∧ s.abandon k = s.underReset) ∨
      ∃ c rest, s.cmds = c :: rest ∧
        ((drawsSeed (decode c) = true ∧ s.abandon k = ((s.accept rest).takeDraws k).underReset) ∨
          (drawsSeed (decode c) = false ∧ s.abandon k = (s.accept rest).underReset)) := by
  cases h : s.cmds with
  | nil => exact .inl ⟨rfl, by simp [State.abandon, h]⟩
  | cons c rest =>
    refine .inr ⟨c, rest, rfl, ?_⟩
    cases hd : drawsSeed (decode c) <;> simp [State.abandon, h, hd]

/-- An abandoned command leaves no instance, no readiness and the response port as it was (R34, R95). -/
theorem State.abandon_frame (s : State) (k : Nat) :
    (s.abandon k).engine = none ∧ (s.abandon k).cmdReady = false ∧ (s.abandon k).rsp = s.rsp ∧
      (s.abandon k).rstIn = s.rstIn ∧ (s.abandon k).cmds = s.cmds.tail := by
  obtain ⟨h, e⟩ | ⟨c, rest, h, ⟨-, e⟩ | ⟨-, e⟩⟩ := s.abandon_cases k
  · simp [e, h]
  · obtain ⟨-, -, h3, h4, h5⟩ := (s.accept rest).takeDraws_frame k
    simp [e, h, h3, h4, h5]
  · simp [e, h]

/-- The engine a construction leaves: seeded, then advanced once (R63). -/
def primedEngine (seed64 : Word) (incseed : Option Word) : Engine :=
  { state := lcgStep seed64 (incrOf (incseedOf incseed)), increment := incrOf (incseedOf incseed) }

theorem exec_new_some (v : Word) (incseed : Option Word) (s : State) :
    exec (.new (some v) incseed) s = .next ((s.setEngine (primedEngine v incseed)).answer .ok 0) := rfl

theorem exec_new_none (incseed : Option Word) (s : State) :
    exec (.new none incseed) s =
      .next ((s.takeEntropy.takeClock.setEngine (primedEngine (s.entValue + s.clkTicks) incseed)).answer .ok 0) := rfl

theorem exec_nextU32_none {s : State} (h : s.engine = none) :
    exec .nextU32 s = .next (s.answer .errNoEngine 0) := by
  simp only [exec, execNextU32, h]; rfl

theorem exec_nextU32_some {s : State} {e : Engine} (h : s.engine = some e) :
    exec .nextU32 s = .next ((s.setEngine (nextOutput e).2).answer .ok (zext64 (xshRr e.state))) := by
  simp only [exec, execNextU32, h]; rfl

theorem exec_nextRange_none {s : State} (low high : Int) (h : s.engine = none) :
    exec (.nextRange low high) s = .next (s.answer .errNoEngine 0) := by
  simp only [exec, execNextRange, h]; rfl

theorem exec_nextRange_invalid {s : State} {e : Engine} {low high : Int} (h : s.engine = some e) (hr : high < low) :
    exec (.nextRange low high) s = .next (s.answer .errInvalidRange 0) := by
  simp only [exec, execNextRange, h, invalidRange, hr, decide_true, if_true]; rfl

theorem exec_nextRange_valid {s : State} {e : Engine} {low high : Int} (h : s.engine = some e) (hr : low ≤ high) :
    exec (.nextRange low high) s =
      .next ((s.setEngine (nextOutput e).2).answer .ok (u64 (rangeMap (xshRr e.state) low high))) := by
  have hn : ¬ high < low := by omega
  simp only [exec, execNextRange, h, invalidRange, hn, decide_false]; rfl

theorem exec_reserved (s : State) : exec .reserved s = .next (s.answer .errReservedOp 0) := rfl

/-- Everything an instruction can do: construct, from a supplied or a drawn seed; advance the engine by one output; or
be refused without effect. -/
theorem exec_cases {i : Instr} {s t : State} (h : exec i s = .next t) :
    (∃ v inc, i = .new (some v) inc ∧ t = (s.setEngine (primedEngine v inc)).answer .ok 0) ∨
      (∃ inc, i = .new none inc ∧
        t = (s.takeEntropy.takeClock.setEngine (primedEngine (s.entValue + s.clkTicks) inc)).answer .ok 0) ∨
      (∃ e d, s.engine = some e ∧ (i = .nextU32 ∨ ∃ low high, i = .nextRange low high ∧ low ≤ high) ∧
        t = (s.setEngine (nextOutput e).2).answer .ok d) ∨
      (∃ err, err ≠ Status.ok ∧ drawsSeed i = false ∧ (∀ seed inc, i ≠ .new seed inc) ∧ t = s.answer err 0) := by
  cases i with
  | new seed inc =>
    cases seed with
    | some v => exact .inl ⟨v, inc, rfl, (Host.Outcome.next.inj ((exec_new_some v inc s).symm.trans h)).symm⟩
    | none => exact .inr (.inl ⟨inc, rfl, (Host.Outcome.next.inj ((exec_new_none inc s).symm.trans h)).symm⟩)
  | nextU32 =>
    cases he : s.engine with
    | none =>
      exact .inr (.inr (.inr ⟨.errNoEngine, by decide, rfl, nofun,
        (Host.Outcome.next.inj ((exec_nextU32_none he).symm.trans h)).symm⟩))
    | some e =>
      exact .inr (.inr (.inl ⟨e, _, rfl, .inl rfl, (Host.Outcome.next.inj ((exec_nextU32_some he).symm.trans h)).symm⟩))
  | nextRange low high =>
    cases he : s.engine with
    | none =>
      exact .inr (.inr (.inr ⟨.errNoEngine, by decide, rfl, nofun,
        (Host.Outcome.next.inj ((exec_nextRange_none low high he).symm.trans h)).symm⟩))
    | some e =>
      by_cases hr : high < low
      · exact .inr (.inr (.inr ⟨.errInvalidRange, by decide, rfl, nofun,
          (Host.Outcome.next.inj ((exec_nextRange_invalid he hr).symm.trans h)).symm⟩))
      · exact .inr (.inr (.inl ⟨e, _, rfl, .inr ⟨low, high, rfl, by omega⟩,
          (Host.Outcome.next.inj ((exec_nextRange_valid he (by omega)).symm.trans h)).symm⟩))
  | reserved =>
    exact .inr (.inr (.inr ⟨.errReservedOp, by decide, rfl, nofun,
      (Host.Outcome.next.inj ((exec_reserved s).symm.trans h)).symm⟩))

end Sys2Proof.Machine
end

