-- ==== Sys2Proof/Laws/PerInstr.lean ====
section
/-! SUPPORT. A fact about every instruction as syntax, one lemma per constructor: its encoding is canonical and its `op`
field is the instruction's own (R36, R39, R44). -/

namespace Sys2Proof

/-- The command of an instruction carries its operation code and has every ignored bit 0. -/
def Laws.EncodeCanonical.Statement (i : Instr) : Prop :=
  (encode i).op = i.opField ∧ (encode i).canonical = true

theorem Laws.EncodeCanonical.new (seed incseed : Option Word) :
    Laws.EncodeCanonical.Statement (.new seed incseed) := by
  have hop : ∀ s i : Bool, ((0b00 : BitVec 2) ++ BitVec.ofBool s ++ BitVec.ofBool i).extractLsb' 2 2 = 0b00 := by decide
  have hsp : ∀ s i : Bool, ((0b00 : BitVec 2) ++ BitVec.ofBool s ++ BitVec.ofBool i).getLsbD 1 = s := by decide
  have hip : ∀ s i : Bool, ((0b00 : BitVec 2) ++ BitVec.ofBool s ++ BitVec.ofBool i).getLsbD 0 = i := by decide
  refine ⟨hop _ _, ?_⟩
  simp only [Command.canonical, Command.op, Command.sp, Command.ip, encode, newCtl, hop, hsp, hip]
  cases seed <;> cases incseed <;> simp

theorem Laws.EncodeCanonical.nextU32 : Laws.EncodeCanonical.Statement .nextU32 := ⟨rfl, rfl⟩

theorem Laws.EncodeCanonical.nextRange (low high : Int) :
    Laws.EncodeCanonical.Statement (.nextRange low high) := by
  constructor <;> simp [encode, Instr.opField, Command.canonical, Command.op, Command.sp, Command.ip]

theorem Laws.EncodeCanonical.reserved : Laws.EncodeCanonical.Statement .reserved := ⟨rfl, rfl⟩

end Sys2Proof
end

