-- ==== Sys2Proof/Laws/Step.lean ====
section
/-! SUPPORT. What a step can do, said once: run the accepted command, idle, hold under reset, or abandon. -/

namespace Sys2Proof.Machine

theorem step_high {s : State} (h : s.rstNow = .high) : step s = .next s.beginStep.underReset := by
  simp only [step, fetch, h]

theorem step_rises {s : State} {k : Nat} (h : s.rstNow = .rises k) : step s = .next (s.beginStep.abandon k) := by
  simp only [step, fetch, h]

theorem step_low_nil {s : State} (h : s.rstNow = .low) (hc : s.cmds = []) : step s = .next s.beginStep := by
  simp only [step, fetch, h, hc]

theorem step_low_cons {s : State} {c : Command} {rest : List Command} (h : s.rstNow = .low) (hc : s.cmds = c :: rest) :
    step s = exec (decode c) (s.beginStep.accept rest) := by
  simp only [step, fetch, h, hc]

/-- The command presented is the next accepted, whatever the state. -/
theorem step_present (s : State) (c : Command) :
    step (s.present c) = exec (decode c) ((s.present c).beginStep.accept s.cmds) :=
  step_low_cons rfl rfl

/-- Everything a step can do. -/
theorem step_cases {s t : State} (h : step s = .next t) :
    (∃ c rest, s.rstNow = .low ∧ s.cmds = c :: rest ∧ exec (decode c) (s.beginStep.accept rest) = .next t) ∨
      (s.rstNow = .low ∧ s.cmds = [] ∧ t = s.beginStep) ∨
      (s.rstNow = .high ∧ t = s.beginStep.underReset) ∨
      (∃ k, s.rstNow = .rises k ∧ t = s.beginStep.abandon k) := by
  cases hr : s.rstNow with
  | low =>
    cases hc : s.cmds with
    | nil => exact .inr (.inl ⟨rfl, rfl, (Host.Outcome.next.inj ((step_low_nil hr hc).symm.trans h)).symm⟩)
    | cons c rest => exact .inl ⟨c, rest, rfl, rfl, (step_low_cons hr hc).symm.trans h⟩
  | high => exact .inr (.inr (.inl ⟨rfl, (Host.Outcome.next.inj ((step_high hr).symm.trans h)).symm⟩))
  | rises k => exact .inr (.inr (.inr ⟨k, rfl, (Host.Outcome.next.inj ((step_rises hr).symm.trans h)).symm⟩))

end Sys2Proof.Machine
end

