-- ==== Sys2Proof/Laws/Written.lean ====
section
/-! SUPPORT. What presenting written lines does, said once: the fields it leaves, the inputs it makes, and what is still
presented after one step and after the steps of a list of lines. -/

namespace Sys2Proof.Machine

variable (s : State)

/-- Presenting replaces the inputs to come, by inputs that do not depend on the state, and leaves the rest of the state. -/
theorem State.presentFrom_inputs (t : State) (offered : Option (Word × Word)) (lines : List Line) :
    t.presentFrom offered lines =
      { t with rstIn := (s.presentFrom offered lines).rstIn, cmds := (s.presentFrom offered lines).cmds,
               entIn := (s.presentFrom offered lines).entIn, clkIn := (s.presentFrom offered lines).clkIn } := by
  induction lines generalizing offered with
  | nil => rfl
  | cons l ls ih =>
    cases l with
    | command i =>
      cases h : drawsSeed i <;> simp only [State.presentFrom, h, if_true, Bool.false_eq_true, if_false]
      · rw [ih offered]
      · rw [ih none]
    | draw ent clk => exact ih _
    | resetPulse => simp only [State.presentFrom]; rw [ih offered]
    | blank => exact ih _

/-- A state whose inputs are those that the lines present is one that presents the lines. -/
theorem State.eq_presentFrom {s t : State} {offered : Option (Word × Word)} {lines : List Line}
    (h1 : t.rstIn = (s.presentFrom offered lines).rstIn) (h2 : t.cmds = (s.presentFrom offered lines).cmds)
    (h3 : t.entIn = (s.presentFrom offered lines).entIn) (h4 : t.clkIn = (s.presentFrom offered lines).clkIn) :
    t = t.presentFrom offered lines := by
  rw [s.presentFrom_inputs t, ← h1, ← h2, ← h3, ← h4]

@[simp] theorem State.presentFrom_draw (offered : Option (Word × Word)) (ent clk : Word) (rest : List Line) :
    s.presentFrom offered (.draw ent clk :: rest) = s.presentFrom (some (ent, clk)) rest := rfl

@[simp] theorem State.presentFrom_blank (offered : Option (Word × Word)) (rest : List Line) :
    s.presentFrom offered (.blank :: rest) = s.presentFrom offered rest := rfl

/-- A command draws exactly if its op field is 00 and its sp bit 0 (R26). -/
theorem drawsSeed_decode (c : Command) : drawsSeed (decode c) = (c.op == 0b00 && !c.sp) := by
  obtain h | h | h | h := c.op_cases
  · rw [decode_new h, h]; cases c.sp <;> rfl
  · rw [decode_nextU32 h, h]; rfl
  · rw [decode_nextRange h, h]; rfl
  · rw [decode_reserved h, h]; rfl

/-- The encoder keeps whether an instruction draws. -/
theorem drawsSeed_decode_encode (i : Instr) : drawsSeed (decode (encode i)) = drawsSeed i := by
  rw [drawsSeed_decode]
  cases i with
  | new seed inc => cases seed <;> cases inc <;> simp [encode, newCtl, Command.op, Command.sp, drawsSeed]
  | nextU32 => rfl
  | nextRange low high => simp [encode, Command.op, drawsSeed]
  | reserved => rfl

/-- What an instruction leaves of the inputs: all of them, but for the one value of each collaborator that a NEW without
a seed draws. -/
theorem exec_inputs {i : Instr} {s t : State} (h : exec i s = .next t) :
    t.rstIn = s.rstIn ∧ t.cmds = s.cmds ∧ t.entIn = (if drawsSeed i then s.entIn.tail else s.entIn) ∧
      t.clkIn = (if drawsSeed i then s.clkIn.tail else s.clkIn) := by
  obtain ⟨v, inc, rfl, rfl⟩ | ⟨inc, rfl, rfl⟩ | ⟨e, d, -, rfl | ⟨low, high, rfl, -⟩, rfl⟩ | ⟨err, -, hd, -, rfl⟩ :=
    exec_cases h
  · exact ⟨rfl, rfl, rfl, rfl⟩
  · exact ⟨rfl, rfl, rfl, rfl⟩
  · exact ⟨rfl, rfl, rfl, rfl⟩
  · exact ⟨rfl, rfl, rfl, rfl⟩
  · simp [hd]

/-- Every instruction has a next state. -/
theorem exec_isNext (i : Instr) (s : State) : ∃ t, exec i s = .next t := by
  cases i with
  | new seed inc => cases seed with
    | none => exact ⟨_, exec_new_none inc s⟩
    | some v => exact ⟨_, exec_new_some v inc s⟩
  | nextU32 => cases he : s.engine with
    | none => exact ⟨_, exec_nextU32_none he⟩
    | some e => exact ⟨_, exec_nextU32_some he⟩
  | nextRange low high => cases he : s.engine with
    | none => exact ⟨_, exec_nextRange_none low high he⟩
    | some e =>
      by_cases hr : high < low
      · exact ⟨_, exec_nextRange_invalid he hr⟩
      · exact ⟨_, exec_nextRange_valid he (by omega)⟩
  | reserved => exact ⟨_, exec_reserved s⟩

/-- The step of a written command leaves the lines after it presented, with the offer gone if the command drew it. -/
theorem step_presentFrom_command (offered : Option (Word × Word)) (i : Instr) (rest : List Line) :
    ∃ t : State, step (s.presentFrom offered (.command i :: rest)) =
      .next (t.presentFrom (if drawsSeed i then none else offered) rest) := by
  cases hd : drawsSeed i
  all_goals
    rw [step_low_cons (c := encode i) (rest := (s.presentFrom (if drawsSeed i then none else offered) rest).cmds)
      (by simp [State.presentFrom, hd, State.rstNow]) (by simp [State.presentFrom, hd])]
    obtain ⟨t, ht⟩ := exec_isNext (decode (encode i)) ((s.presentFrom offered (.command i :: rest)).beginStep.accept
      (s.presentFrom (if drawsSeed i then none else offered) rest).cmds)
    obtain ⟨h1, h2, h3, h4⟩ := exec_inputs ht
    rw [drawsSeed_decode_encode] at h3 h4
    refine ⟨t, ht.trans (congrArg _ (State.eq_presentFrom (s := s) ?_ ?_ ?_ ?_))⟩ <;>
      simp [h1, h2, h3, h4, State.presentFrom, hd]

/-- The step of a written `.reset` leaves the lines after it presented, the offer standing, and no instance. -/
theorem step_presentFrom_resetPulse (offered : Option (Word × Word)) (rest : List Line) :
    ∃ t : State, step (s.presentFrom offered (.resetPulse :: rest)) = .next (t.presentFrom offered rest) := by
  rw [step_high (by rfl)]
  exact ⟨_, congrArg _ (State.eq_presentFrom (s := s) rfl rfl rfl rfl)⟩

/-- One more step of a run that begins with a completing step. -/
theorem run_of_step {s t : State} {k : Nat} (h : step s = .next t) :
    Host.Core.run core (k + 1) s = Host.Core.run core k t := by
  simp only [Host.Core.run]
  rw [show core.step s = .next t from h]

/-- What a list of lines leaves of an offer: a `.draw` line replaces it, a NEW without a seed takes it. -/
def offerAfter : Option (Word × Word) → List Line → Option (Word × Word)
  | offered, [] => offered
  | offered, .command i :: rest => offerAfter (if drawsSeed i then none else offered) rest
  | _, .draw ent clk :: rest => offerAfter (some (ent, clk)) rest
  | offered, .resetPulse :: rest => offerAfter offered rest
  | offered, .blank :: rest => offerAfter offered rest

/-- After the steps of the first lines the others are presented, with what the first leave of the offer. -/
theorem run_presentFrom (before rest : List Line) (offered : Option (Word × Word)) :
    ∃ t : State, Host.Core.run core (lineSteps before) (s.presentFrom offered (before ++ rest)) =
      .next (t.presentFrom (offerAfter offered before) rest) := by
  induction before generalizing s offered with
  | nil => exact ⟨s, rfl⟩
  | cons l ls ih =>
    cases l with
    | command i =>
      obtain ⟨t, ht⟩ := step_presentFrom_command s offered i (ls ++ rest)
      obtain ⟨u, hu⟩ := ih t (if drawsSeed i then none else offered)
      exact ⟨u, (run_of_step ht).trans hu⟩
    | draw ent clk => exact ih s _
    | resetPulse =>
      obtain ⟨t, ht⟩ := step_presentFrom_resetPulse s offered (ls ++ rest)
      obtain ⟨u, hu⟩ := ih t offered
      exact ⟨u, (run_of_step ht).trans hu⟩
    | blank => exact ih s _

/-- Lines that neither state nor draw values leave an offer standing. -/
theorem offerAfter_of_neither {lines : List Line} (h : ∀ l ∈ lines, l.isDraw = false ∧ l.isDefaultSeeded = false)
    (offered : Option (Word × Word)) : offerAfter offered lines = offered := by
  induction lines with
  | nil => rfl
  | cons l ls ih =>
    have ih := ih fun k hk => h k (List.mem_cons_of_mem l hk)
    obtain ⟨h1, h2⟩ := h l List.mem_cons_self
    cases l with
    | command i => simpa [offerAfter, show drawsSeed i = false from h2] using ih
    | draw ent clk => exact nomatch h1
    | resetPulse => exact ih
    | blank => exact ih

/-- Lines without a `.draw` make no offer. -/
theorem offerAfter_none {lines : List Line} (h : ∀ l ∈ lines, l.isDraw = false) : offerAfter none lines = none := by
  induction lines with
  | nil => rfl
  | cons l ls ih =>
    have ih := ih fun k hk => h k (List.mem_cons_of_mem l hk)
    cases l with
    | command i => simpa [offerAfter] using ih
    | draw ent clk => exact nomatch h _ List.mem_cons_self
    | resetPulse => exact ih
    | blank => exact ih

end Sys2Proof.Machine
end

