-- ==== Sys2Proof/Tests/Slice0.lean ====
section
/-! SUPPORT. The model's own tests: expected values come from 95_test_vectors.md and the worked examples of the rules; and
one witness for each statement with hypotheses. -/

namespace Sys2Proof.Tests

open Sys2Proof.Machine

/-- An engine of the conformance fixture, after `NEW seed=42, incseed=54` (95_test_vectors.md S2). -/
def fixture : Engine := { state := 0x7D720F6E9086DDCF, increment := 0x6D }

/-- A constructed block with nothing to do. -/
def constructed : State := State.reset.setEngine fixture

/-- `s` with the command presented, decoded from its word. -/
def given (s : State) (cw : BitVec 132) : State := s.present (Command.ofWord cw)

/-- The state after one step. -/
def after (s : State) : Option State :=
  match step s with
  | .next t => some t
  | .fault _ => none
  | .refused _ => none

/-- The engine and the response word after one step. -/
def outcome (s : State) : Option (Option Engine × Option (BitVec 66)) :=
  (after s).map fun t => (t.engine, t.rsp.map Response.toWord)

/-! ## Well-formedness smoke tests (R38, R70) -/

theorem test_wf_refuses_low_below : (Instr.nextRange (-9223372036854775809) 0).wf = false := by decide
theorem test_wf_refuses_low_above : (Instr.nextRange 9223372036854775808 0).wf = false := by decide
theorem test_wf_refuses_high_above : (Instr.nextRange 0 9223372036854775808).wf = false := by decide
theorem test_wf_refuses_high_below : (Instr.nextRange 0 (-9223372036854775809)).wf = false := by decide
theorem test_wf_accepts_full_range :
    (Instr.nextRange (-9223372036854775808) 9223372036854775807).wf = true := by decide

/-! ## Decoding, bit by bit from R35 and R36: `ctl` in bits 131 to 128, `a` in 127 to 64, `b` in 63 to 0 -/

/-- `op = 00`, `sp = 0`, `ip = 1`: an increment seed only. -/
theorem test_decode_new_incseed_only :
    decode (Command.ofWord ((0b0001 : BitVec 4) ++ (7 : Word) ++ (0x8000000000000005 : Word))) =
      .new none (some 0x8000000000000005) := by decide

/-- `op = 00`, `sp = 1`, `ip = 0`: a seed only; `b` is ignored (V-NEW-10). -/
theorem test_decode_new_seed_only :
    decode (Command.ofWord ((0b0010 : BitVec 4) ++ (0xDEADBEEFDEADBEEF : Word) ++ (0x1234567812345678 : Word))) =
      .new (some 0xDEADBEEFDEADBEEF) none := by decide

/-- `op = 01`, every ignored bit set (V-U32-11). -/
theorem test_decode_nextU32_ignored_bits :
    decode (Command.ofWord ((0b0111 : BitVec 4) ++ (0xFFFFFFFFFFFFFFFF : Word) ++ (0xFFFFFFFFFFFFFFFF : Word))) =
      .nextU32 := by decide

/-- `op = 10`: two's-complement bounds (V-RNG-3). -/
theorem test_decode_nextRange_signed :
    decode (Command.ofWord ((0b1000 : BitVec 4) ++ (0xFFFFFFFFFFFFFFFB : Word) ++ (5 : Word))) =
      .nextRange (-5) 5 := by decide

/-- `op = 11` (V-ERR-4). -/
theorem test_decode_reserved :
    decode (Command.ofWord ((0b1101 : BitVec 4) ++ (0xA : Word) ++ (5 : Word))) = .reserved := by decide

/-- The encodings of 95_test_vectors.md, "Command words". -/
theorem test_encode_words :
    (encode (.new (some 42) (some 54))).toWord = 0x3000000000000002A0000000000000036 ∧
      (encode .nextU32).toWord = 0x400000000000000000000000000000000 ∧
      (encode (.nextRange (-5) 5)).toWord = 0x8FFFFFFFFFFFFFFFB0000000000000005 := by decide

/-- The opcode table's `match` values, numbered over `ctl`. -/
theorem test_table_words :
    decodeTableWord 8 0x0 = some (.new none none) ∧ decodeTableWord 8 0x4 = some .nextU32 ∧
      decodeTableWord 8 0x8 = some (.nextRange 0 0) ∧ decodeTableWord 8 0xC = some .reserved := by decide

/-! ## Datapath (95_test_vectors.md Part 2) -/

/-- V-INC-5, V-INC-8: the top bit is lost, bit 62 moves to bit 63. -/
theorem test_incrOf : incrOf 0x8000000000000005 = 0xB ∧ incrOf 0x4000000000000000 = 0x8000000000000001 := by decide

/-- V-LCG-5, V-LCG-7: the product wraps. -/
theorem test_lcgStep :
    lcgStep 0xFFFFFFFFFFFFFFFF 1 = 0xA7AE0BD2B36A80D4 ∧ lcgStep 0x8000000000000000 3 = 0x8000000000000003 := by decide

/-- V-XSH-9, V-XSH-16: bit 0 wraps to bit 31; a rotate by 31. -/
theorem test_xshRr : xshRr 0x0800000008000000 = 0x80002000 ∧ xshRr 0xFEDCBA9876543210 = 0xB7214BD7 := by decide

/-- V-ROR-1, V-ROR-4: no rotate, and a rotate to the right. -/
theorem test_ror32 : ror32 0x80000001 0 = 0x80000001 ∧ ror32 0x12345678 4 = 0x81234567 := by decide

/-- V-MAP-13, V-MAP-9: negative bounds, and the full range, in both forms of the mapper. -/
theorem test_rangeMap :
    u64 (rangeMap 0xDEADBEEF (-100) (-1)) = 0xFFFFFFFFFFFFFFD7 ∧
      rangeMap64 0xDEADBEEF 0xFFFFFFFFFFFFFF9C 0xFFFFFFFFFFFFFFFF = 0xFFFFFFFFFFFFFFD7 ∧
      u64 (rangeMap 0xFFFFFFFF minS64 maxS64) = 0x80000000FFFFFFFF ∧
      rangeMap64 0xFFFFFFFF 0x8000000000000000 0x7FFFFFFFFFFFFFFF = 0x80000000FFFFFFFF := by decide

/-! ## The commands -/

/-- V-NEW-1 on a constructed block: the old engine leaves no trace. -/
theorem test_new_seeded :
    outcome (given constructed 0x3000000000000002A0000000000000036) = some (some fixture, some 0) := by decide

/-- V-NEW-9: seed drawn, the sum wraps, increment seed supplied; the two draws are consumed. -/
theorem test_new_drawn :
    (after ({ given State.reset 0x100000000000000008000000000000005 with
        entIn := [some 0x123456789ABCDEF0], clkIn := [some 0xFEDCBA9876543210] } : State)).map
        (fun t => (t.engine, t.entIn, t.clkIn, t.entReads, t.clkReads)) =
      some (some { state := 0x1CAB74725C6EFD0B, increment := 0xB }, [], [], 1, 1) := by decide

/-- V-U32-1: the output is of the state before the advance. -/
theorem test_nextU32 :
    outcome (given constructed 0x400000000000000000000000000000000) =
      some (some { state := 0xBA9401DDDD39AED0, increment := 0x6D }, some 0x0C855C84) := by decide

/-- V-U32-10: refused before construction; status code 01 in bits 65:64 of the response word. -/
theorem test_nextU32_no_engine :
    outcome (given State.reset 0x400000000000000000000000000000000) =
      some (none, some 0x10000000000000000) := by decide

/-- V-RNG-3: −5..5 gives −1. -/
theorem test_nextRange :
    outcome (given constructed 0x8FFFFFFFFFFFFFFFB0000000000000005) =
      some (some { state := 0xBA9401DDDD39AED0, increment := 0x6D }, some 0xFFFFFFFFFFFFFFFF) := by decide

/-- V-RNG-10: 5..−5 is invalid although the patterns are in unsigned order; status code 10. -/
theorem test_nextRange_invalid :
    outcome (given constructed 0x80000000000000005FFFFFFFFFFFFFFFB) =
      some (some fixture, some 0x20000000000000000) := by decide

/-- V-ERR-3: status code 11, nothing changed. -/
theorem test_reserved :
    outcome (given constructed 0xFFFFFFFFFFFFFFFFFFFFFFFFFFFFFFFFF) =
      some (some fixture, some 0x30000000000000000) := by decide

/-- P6: the reset input unconstructs the block and leaves the waiting command at the port. -/
theorem test_reset_input :
    (after ({ constructed with rstIn := [.high], cmds := [encode .nextU32] } : State)).map
        (fun t => (t.engine, t.cmdReady, t.rsp, t.cmds)) =
      some (none, false, none, [encode .nextU32]) := by decide

/-- R95: a default-seeded NEW abandoned after its entropy draw gives no response and no engine. -/
theorem test_abandoned :
    (after ({ constructed with rstIn := [.rises 1], cmds := [encode (.new none none)], entIn := [some 5] } : State)).map
        (fun t => (t.engine, t.rsp, t.cmds, t.entReads, t.clkReads)) = some (none, none, [], 1, 0) := by decide

/-! ## Written syntax (R45) -/

theorem test_parse_new :
    parseLine "NEW seed=42, incseed=0x36  ; fixture".toList = some (.command (.new (some 42) (some 54))) := by decide
theorem test_parse_range :
    parseLine "NEXT_RANGE -5, 0x7FFFFFFFFFFFFFFF".toList =
      some (.command (.nextRange (-5) 9223372036854775807)) := by decide
theorem test_parse_directives :
    parseLine ".draw ent=3, clk=0xF".toList = some (.draw 3 15) ∧ parseLine ".reset".toList = some .resetPulse := by
  decide
/-- A leading '+' is refused: the model's choice (log entry 22). -/
theorem test_parse_refuses_plus : parseLine "NEXT_RANGE +1, 6".toList = none := by decide

/-- R45: `.draw` between two NEWs is for the second of them. -/
theorem test_draw_line_between_constructions :
    (State.reset.presentLines [.command (.new none none), .draw 1 2, .command (.new none none)]).entIn =
        [none, some 1] ∧
      (State.reset.presentLines [.command (.new none none), .draw 1 2, .command (.new none none)]).clkIn =
        [none, some 2] := by decide

theorem test_parse_refuses_large : parseLine "NEXT_RANGE 0, 9223372036854775808".toList = none := by decide

/-! ## Witnesses: for each statement with hypotheses, inputs that meet them together -/

/-- Commands of each form, the ignored bits of the second of each pair set. -/
theorem witness_IgnoredBitsSelectNothing :
    ({ ctl := 0b0000, a := 0, b := 0 } : Command).sameUsedBits { ctl := 0b0000, a := 1, b := 2 } ∧
      ({ ctl := 0b0011, a := 1, b := 2 } : Command).sameUsedBits { ctl := 0b0011, a := 1, b := 2 } ∧
      ({ ctl := 0b0100, a := 0, b := 0 } : Command).sameUsedBits { ctl := 0b0111, a := 1, b := 2 } ∧
      ({ ctl := 0b1000, a := 1, b := 2 } : Command).sameUsedBits { ctl := 0b1011, a := 1, b := 2 } ∧
      ({ ctl := 0b1100, a := 0, b := 0 } : Command).sameUsedBits { ctl := 0b1111, a := 1, b := 2 } := by
  unfold Command.sameUsedBits
  exact ⟨by decide, by decide, by decide, by decide, by decide⟩

/-- Each masked value of `ctl`, and each of the four forms of NEW. -/
theorem witness_TableRowsPartitionControl :
    (0b0011 : BitVec 4) &&& 0b1100 = 0b0000 ∧ (0b0111 : BitVec 4) &&& 0b1100 = 0b0100 ∧
      (0b1011 : BitVec 4) &&& 0b1100 = 0b1000 ∧ (0b1111 : BitVec 4) &&& 0b1100 = 0b1100 := by decide

/-- Well-formed instructions at the ends of the bounds, a canonical command and one that is not. -/
theorem witness_DecodeAndEncodeAgree :
    (Instr.nextRange minS64 maxS64).WellFormed ∧ (Instr.new none (some 0)).WellFormed ∧
      (encode (.nextRange minS64 maxS64)).canonical = true ∧
      ({ ctl := 0b0101, a := 0, b := 0 } : Command).canonical = false := by decide

theorem witness_DecodedExactlyTheWellFormed :
    (Instr.nextRange maxS64 minS64).WellFormed ∧
      decode { ctl := 0b1000, a := 0x7FFFFFFFFFFFFFFF, b := 0x8000000000000000 } = .nextRange maxS64 minS64 := by decide

/-- Odd increments at both ends. -/
theorem witness_IncrementIsShiftedAndForcedOdd :
    (1 : Word).toNat % 2 = 1 ∧ (0xFFFFFFFFFFFFFFFF : Word).toNat % 2 = 1 ∧
      (0x8000000000000005 : Word).extractLsb' 0 63 = (5 : Word).extractLsb' 0 63 := by decide

theorem witness_CongruentialStepIsModularAndBijective : 3 ≤ (3 : Word).toNat := by decide

/-- The largest state below 2^27, two states that differ only below bit 27, and the bits where the cases meet. -/
theorem witness_XorshiftSelectsBits :
    (0x7FFFFFF : Word).toNat < 2 ^ 27 ∧ (0x8000000 : Word) >>> 27 = (0xFFFFFFF : Word) >>> 27 ∧
      18 ≤ 18 ∧ ¬19 ≤ 18 ∧ 31 < 32 := by decide

theorem witness_RotateRightWithinThirtyTwoBits :
    31 < 32 ∧ (0 : Rot).toNat = 0 ∧ (31 : Rot).toNat ≠ 0 := by decide

theorem witness_OutputPermutationOfTheOldState :
    (0x7FFFFFF : Word).toNat < 2 ^ 27 ∧ (0x7FFFFFFFFFFFFFF : Word).toNat < 2 ^ 59 := by decide

theorem witness_RangeMapperStaysInRange :
    (7 : Int) ≤ 7 ∧ (0x8000000000000000 : Word).toInt ≤ (0x7FFFFFFFFFFFFFFF : Word).toInt ∧
      (0 : Word).toInt ≤ (0 : Word).toInt := by decide

/-- Known integers at both ports, one wider than 64 bits. -/
theorem witness_CollaboratorIntegersAtThePorts :
    ({ State.reset with entIn := [some 18446744073709551615], clkIn := [some 18446744073709551618, none] } : State).entIn =
        [some 18446744073709551615] ∧
      ({ State.reset with entIn := [some 18446744073709551615], clkIn := [some 18446744073709551618, none] } : State).clkIn =
        [some 18446744073709551618, none] := by decide

theorem witness_NextU32AnswersTheOldStatesOutput : constructed.engine = some fixture := by decide

theorem witness_NextU32RefusedWithoutEngine : State.reset.engine = none := by decide

theorem witness_NextRangeMapsOneOutput : constructed.engine = some fixture ∧ (1 : Int) ≤ 6 ∧ (7 : Int) ≤ 7 := by decide

theorem witness_NextRangeRefusals :
    State.reset.engine = none ∧ constructed.engine = some fixture ∧ (5 : Int) < 6 ∧
      ({ ctl := 0b1000, a := 6, b := 5 } : Command).op = 0b10 := by decide

theorem witness_NextRangeStaysWithinBounds :
    constructed.engine = some fixture ∧
      ({ ctl := 0b1000, a := 0x8000000000000000, b := 0x7FFFFFFFFFFFFFFF } : Command).op = 0b10 ∧
      ({ ctl := 0b1000, a := 0x8000000000000000, b := 0x7FFFFFFFFFFFFFFF } : Command).a.toInt ≤
        ({ ctl := 0b1000, a := 0x8000000000000000, b := 0x7FFFFFFFFFFFFFFF } : Command).b.toInt := by decide

/-- A NEXT_U32 with its response, bounds in order, and a span above 2^32. -/
theorem witness_NextRangeIsNextU32Reduced :
    (∃ t, exec .nextU32 constructed = .next t ∧ t.rsp = some { status := .ok, data := 0x0C855C84 }) ∧
      (0 : Int) ≤ 4294967296 ∧ (2 : Int) ^ 32 < 4294967296 - 0 + 1 :=
  ⟨⟨_, rfl, by decide⟩, by decide, by decide⟩

theorem witness_NextRangeCornerCases : constructed.engine = some fixture := by decide

/-- Two states that differ only below bit 27. -/
theorem witness_ResponsesHideIncrementAndLowState :
    ({ state := 0x7D720F6E9086DDCF, increment := 0x6D } : Engine).state >>> 27 =
      ({ state := 0x7D720F6E9086DD65, increment := 3 } : Engine).state >>> 27 := by decide

theorem witness_ReservedCommandRefused : ({ ctl := 0b1101, a := 10, b := 5 } : Command).op = 0b11 := by decide

/-- A step that accepts a command, for each row of the priority. -/
theorem witness_StatusOfEveryCommand :
    (State.reset.present { ctl := 0b1100, a := 0, b := 0 }).accepts { ctl := 0b1100, a := 0, b := 0 } ∧
      (State.reset.present { ctl := 0b1000, a := 10, b := 5 }).accepts { ctl := 0b1000, a := 10, b := 5 } ∧
      (constructed.present { ctl := 0b1000, a := 10, b := 5 }).accepts { ctl := 0b1000, a := 10, b := 5 } ∧
      (constructed.present { ctl := 0b0100, a := 0, b := 0 }).accepts { ctl := 0b0100, a := 0, b := 0 } :=
  ⟨⟨rfl, rfl⟩, ⟨rfl, rfl⟩, ⟨rfl, rfl⟩, ⟨rfl, rfl⟩⟩

/-- A refused command and its step. -/
theorem witness_RefusedCommandChangesNothing :
    ∃ t r, step (constructed.present { ctl := 0b1000, a := 10, b := 5 }) = .next t ∧ t.rsp = some r ∧ r.status ≠ .ok :=
  ⟨_, _, rfl, rfl, by decide⟩

theorem witness_ErrorsAreNotSticky :
    ∃ t, step (constructed.present { ctl := 0b1100, a := 0, b := 0 }) = .next t ∧ t.noError = false :=
  ⟨_, rfl, rfl⟩

theorem witness_StepRunsTheDecodedInstruction :
    (constructed.present (encode .nextU32)).rstNow = .low ∧
      (constructed.present (encode .nextU32)).cmds = encode .nextU32 :: constructed.cmds :=
  ⟨rfl, rfl⟩

/-- A word over `ctl`, and one over the whole command word. -/
theorem witness_PlacedWordRunsNext :
    decodeTableWord 8 0xC = some .reserved ∧
      decodeTableWord 136 0x800000000000000010000000000000006 = some (.nextRange 1 6) := by decide

/-- A step that accepts a command and a step without one. -/
theorem witness_EveryStepCompletes :
    (constructed.present (encode .nextU32)).accepts (encode .nextU32) ∧ constructed.rstNow = .low ∧
      constructed.cmds = [] :=
  ⟨⟨rfl, rfl⟩, rfl, rfl⟩

/-- An accepting step, an idle step and steps under reset, with their next states. -/
theorem witness_OneResponsePerAcceptedCommand :
    (∃ t, step (constructed.present (encode .nextU32)) = .next t) ∧
      (constructed.present (encode .nextU32)).accepts (encode .nextU32) ∧
      (∃ t, step constructed = .next t) ∧ constructed.acceptsNone ∧
      ({ constructed with rstIn := [.high] } : State).acceptsNone ∧
      ({ constructed with rstIn := [.rises 0], cmds := [encode .nextU32] } : State).acceptsNone :=
  ⟨⟨_, rfl⟩, ⟨rfl, rfl⟩, ⟨_, rfl⟩, .inr rfl, .inl (by decide), .inl (by decide)⟩

/-- A construction on an unconstructed block, and a reset of a constructed one. -/
theorem witness_InitSetByNewClearedByReset :
    (∃ t, step (State.reset.present (encode (.new (some 42) none))) = .next t ∧ t.init = true) ∧
      (State.reset.present (encode (.new (some 42) none))).accepts (encode (.new (some 42) none)) ∧
      (encode (.new (some 42) none)).op = 0b00 ∧
      ({ constructed with rstIn := [.high] } : State).rstNow ≠ .low ∧
      (∃ t, step ({ constructed with rstIn := [.high] } : State) = .next t ∧ t.init = false) ∧
      ({ constructed with rstIn := [.high] } : State).init = true :=
  ⟨⟨_, rfl, rfl⟩, ⟨rfl, rfl⟩, by decide, by decide, ⟨_, rfl, rfl⟩, rfl⟩

/-- A step that draws an output, one that is refused, and an idle one, of a constructed block. -/
theorem witness_EngineAdvancesOnlyByDrawnOutputs :
    (∃ t, step (constructed.present (encode .nextU32)) = .next t) ∧ (encode .nextU32).drawsOutput = true ∧
      (encode .nextU32).op ≠ 0b00 ∧ (constructed.present (encode .nextU32)).accepts (encode .nextU32) ∧
      (encode (.nextRange 10 5)).drawsOutput = false ∧ (encode (.nextRange 10 5)).op ≠ 0b00 ∧
      (constructed.present (encode (.nextRange 10 5))).accepts (encode (.nextRange 10 5)) ∧
      constructed.rstNow = .low ∧ constructed.engine = some fixture ∧ constructed.cmds = [] :=
  ⟨⟨_, rfl⟩, by decide, by decide, ⟨rfl, rfl⟩, by decide, by decide, ⟨rfl, rfl⟩, rfl, rfl, rfl⟩

/-- A construction that draws, one abandoned after one draw, and steps without a draw under each level of `rst`. -/
theorem witness_DrawsOnlyByDefaultSeededNew :
    (∃ t, step (State.reset.present (encode (.new none none))) = .next t) ∧
      (State.reset.present (encode (.new none none))).accepts (encode (.new none none)) ∧
      (encode (.new none none)).op = 0b00 ∧ (encode (.new none none)).sp = false ∧
      ({ constructed with rstIn := [.rises 1], cmds := [encode (.new none none)] } : State).rstNow = .rises 1 ∧
      ({ constructed with rstIn := [.rises 1], cmds := [encode (.new none none)] } : State).cmds.head? =
        some (encode (.new none none)) ∧
      ({ constructed with rstIn := [.high] } : State).rstNow = .high ∧
      ({ constructed with rstIn := [.rises 2], cmds := [encode .nextU32] } : State).cmds.head? =
        some (encode .nextU32) ∧ (encode .nextU32).op ≠ 0b00 :=
  ⟨⟨_, rfl⟩, ⟨rfl, rfl⟩, by decide, by decide, rfl, rfl, rfl, rfl, by decide⟩

theorem witness_PureApartFromTheDraws :
    constructed.engine = ({ constructed with entIn := [some 1], clkReads := 9 } : State).engine ∧
      ∀ inc, Instr.nextU32 ≠ .new none inc := ⟨rfl, nofun⟩

/-- An instruction of each kind with its next state; an error response; the premises on the instruction. -/
theorem witness_InstructionFrame :
    (∃ t, exec (.new (some 1) none) State.reset = .next t) ∧ (∀ inc, Instr.new (some 1) none ≠ .new none inc) ∧
      (∃ t, exec .nextU32 State.reset = .next t ∧ t.noError = false) ∧
      (∀ seed inc, Instr.nextU32 ≠ .new seed inc) ∧ ∃ t, exec .reserved constructed = .next t :=
  ⟨⟨_, rfl⟩, nofun, ⟨_, rfl, rfl⟩, nofun, ⟨_, rfl⟩⟩

/-- The reset input high, and rising during a command. -/
theorem witness_ResetInputUnconstructs :
    ({ constructed with rstIn := [.high] } : State).rstNow = .high ∧
      (∃ t, step ({ constructed with rstIn := [.high] } : State) = .next t ∧ t.init = false) ∧
      ({ constructed with rstIn := [.rises 2], cmds := [encode (.new none none)] } : State).rstNow = .rises 2 ∧
      ∃ t, step ({ constructed with rstIn := [.rises 2], cmds := [encode (.new none none)] } : State) = .next t :=
  ⟨rfl, ⟨_, rfl, rfl⟩, rfl, ⟨_, rfl⟩⟩

/-- Two commands before any construction. -/
theorem witness_NothingRunsBeforeNew :
    ({ State.reset with cmds := [encode .nextU32, encode .reserved] } : State).engine = none ∧
      (∀ r ∈ ({ State.reset with cmds := [encode .nextU32, encode .reserved] } : State).rstIn, r = .low) ∧
      (∀ c ∈ [encode .nextU32, encode .reserved], c.op ≠ 0b00) := by decide

/-- Each form of NEW, a refused command, an output, and a next command that draws. -/
theorem witness_StateFollowsTheSequence :
    (∀ r ∈ State.reset.rstIn, r = .low) ∧
      (∀ first ∈ [encode (.new (some 42) (some 54)), encode (.new none (some 54)), encode (.new none none)],
        first.op = 0b00 ∧
          ({ State.reset with
            cmds := first :: ([encode (.nextRange 10 5), encode .nextU32] ++ [encode (.nextRange 1 6)]) } : State).cmds =
            first :: ([encode (.nextRange 10 5), encode .nextU32] ++ [encode (.nextRange 1 6)])) ∧
      (∀ c ∈ [encode (.nextRange 10 5), encode .nextU32], c.op ≠ 0b00) ∧
      (encode (.nextRange 1 6)).drawsOutput = true := by decide

/-- Lines that may stand between a `.draw` line and the NEW it is for, and lines without a `.draw`. -/
theorem witness_WrittenDrawGoesToTheNextDefaultSeededNew :
    (∀ l ∈ [Line.command (.new (some 1) none), .resetPulse, .blank, .command .nextU32],
        l.isDraw = false ∧ l.isDefaultSeeded = false) ∧
      ∀ l ∈ [Line.command (.new none none), .resetPulse, .blank], l.isDraw = false := by decide

/-- A constructed state meets the invariant and steps. -/
theorem witness_StepKeepsTheInvariant :
    constructed.Inv ∧ ∃ t, step (constructed.present (encode .nextU32)) = .next t := ⟨by decide, ⟨_, rfl⟩⟩

end Sys2Proof.Tests
end

section
/-! PROOFS. The statements of 10_state.md: the invariant, what a response hides, `init`, the engine between
constructions, and what an instruction leaves unchanged. First the facts they share, then the statements. -/

namespace Sys2Proof.Machine

/-! ### Facts about the datapath -/

/-- The forced low bit makes an increment odd (R11, R52). -/
theorem incrOf_toNat_mod_two (x : Word) : (incrOf x).toNat % 2 = 1 := by
  have hbit : (incrOf x).getLsbD 0 = true := by simp [incrOf]
  simpa [BitVec.getLsbD, Nat.testBit_zero] using hbit

/-- The xorshift reads the state shifted right by 27 alone (R54). -/
theorem xorshiftedOf_eq_of_high_bits (old : Word) :
    xorshiftedOf old = (((old >>> 27) >>> 18) ^^^ (old >>> 27)).setWidth 32 := by
  have h : (((old >>> 18) ^^^ old) >>> 27 : Word) = ((old >>> 27) >>> 18) ^^^ (old >>> 27) := by
    rw [BitVec.ushiftRight_xor_distrib, ← BitVec.shiftRight_add, ← BitVec.shiftRight_add]
  rw [xorshiftedOf, h]

/-- The rotate amount reads the state shifted right by 27 alone (R55). -/
theorem rotOf_eq_of_high_bits (old : Word) : rotOf old = ((old >>> 27) >>> 32).setWidth 5 := by
  rw [rotOf, ← BitVec.shiftRight_add]

/-- Bits 26 to 0 of the state do not reach the output (R54, R57). -/
theorem xshRr_congr {old old' : Word} (h : old >>> 27 = old' >>> 27) : xshRr old = xshRr old' := by
  simp only [xshRr, xorshiftedOf_eq_of_high_bits, rotOf_eq_of_high_bits, h]

/-! ### What a command decodes to, and the step that accepts it -/

/-- A command decodes to a NEW only by its operation code (R36). -/
theorem decode_ne_new {c : Command} (h : c.op ≠ 0b00) (seed inc : Option Word) : decode c ≠ .new seed inc := by
  obtain h0 | h1 | h2 | h3 := c.op_cases
  · exact absurd h0 h
  · simp [decode_nextU32 h1]
  · simp [decode_nextRange h2]
  · simp [decode_reserved h3]

/-- A step that accepts a command executes what it decodes to (R31). -/
theorem step_of_accepts {s : State} {c : Command} (h : s.accepts c) :
    step s = exec (decode c) (s.beginStep.accept s.cmds.tail) := by
  obtain ⟨hlow, hhead⟩ := h
  exact step_low_cons hlow (List.cons_head?_tail hhead).symm

/-! ### What an instruction does to the engine and leaves of the rest -/

@[simp] theorem State.answer_noError_ok (s : State) (d : Word) : (s.answer .ok d).noError = true := rfl

/-- NEW leaves the block constructed (R12). -/
theorem init_of_exec_new {seed inc : Option Word} {s t : State} (h : exec (.new seed inc) s = .next t) :
    t.init = true := by
  obtain ⟨_, _, -, rfl⟩ | ⟨_, -, rfl⟩ | ⟨_, _, -, hi, -⟩ | ⟨_, -, -, hi, -⟩ := exec_cases h
  · rfl
  · rfl
  · simp at hi
  · exact absurd rfl (hi seed inc)

/-- An instruction other than NEW keeps `increment`, if there is one (R11). -/
theorem increment_of_exec {i : Instr} {s t : State} (h : exec i s = .next t) (hi : ∀ seed inc, i ≠ .new seed inc) :
    t.engine.map Engine.increment = s.engine.map Engine.increment := by
  obtain ⟨_, _, hn, -⟩ | ⟨_, hn, -⟩ | ⟨_, _, he, -, rfl⟩ | ⟨_, -, -, -, rfl⟩ := exec_cases h
  · exact absurd hn (hi _ _)
  · exact absurd hn (hi _ _)
  · simp [he]
  · rfl

/-- An instruction other than NEW keeps `init` (R12). -/
theorem init_of_exec {i : Instr} {s t : State} (h : exec i s = .next t) (hi : ∀ seed inc, i ≠ .new seed inc) :
    t.init = s.init := by
  simpa [State.init] using congrArg Option.isSome (increment_of_exec h hi)

/-- No instruction touches the host's commands or the reset input. -/
theorem inputs_of_exec {i : Instr} {s t : State} (h : exec i s = .next t) : t.cmds = s.cmds ∧ t.rstIn = s.rstIn := by
  obtain ⟨_, _, -, rfl⟩ | ⟨_, -, rfl⟩ | ⟨_, _, -, -, rfl⟩ | ⟨_, -, -, -, rfl⟩ := exec_cases h
  all_goals exact ⟨rfl, rfl⟩

/-- An instruction other than a NEW without a seed leaves the entropy and clock ports and their records (R26). -/
theorem draws_of_exec {i : Instr} {s t : State} (h : exec i s = .next t) (hi : ∀ inc, i ≠ .new none inc) :
    t.entIn = s.entIn ∧ t.clkIn = s.clkIn ∧ t.entReads = s.entReads ∧ t.clkReads = s.clkReads ∧
      t.entTake = s.entTake ∧ t.clkTake = s.clkTake := by
  obtain ⟨_, _, -, rfl⟩ | ⟨_, hn, -⟩ | ⟨_, _, -, -, rfl⟩ | ⟨_, -, -, -, rfl⟩ := exec_cases h
  case inr.inl => exact absurd hn (hi _)
  all_goals exact ⟨rfl, rfl, rfl, rfl, rfl, rfl⟩

/-- An instruction that answers an error leaves the engine (R80). -/
theorem engine_of_exec_error {i : Instr} {s t : State} (h : exec i s = .next t) (herr : t.noError = false) :
    t.engine = s.engine := by
  obtain ⟨_, _, -, rfl⟩ | ⟨_, -, rfl⟩ | ⟨_, _, -, -, rfl⟩ | ⟨_, -, -, -, rfl⟩ := exec_cases h
  case inr.inr.inr => rfl
  all_goals simp at herr

/-- A command other than NEW, on a constructed block, advances the state by one congruential step if it draws an output,
and otherwise leaves the engine (R10, R11). -/
theorem engine_of_exec_decode {c : Command} {s t : State} {e : Engine} (h : exec (decode c) s = .next t)
    (he : s.engine = some e) (hop : c.op ≠ 0b00) :
    t.engine = some
      { state := if c.drawsOutput then lcgStep e.state e.increment else e.state, increment := e.increment } := by
  obtain h0 | h1 | h2 | h3 := c.op_cases
  · exact absurd h0 hop
  · rw [decode_nextU32 h1, exec_nextU32_some he] at h
    cases h
    simp [Command.drawsOutput, h1]
  · rw [decode_nextRange h2] at h
    obtain hr | hr := lt_or_ge (s64 c.b) (s64 c.a)
    · rw [exec_nextRange_invalid he hr] at h
      cases h
      have hd : c.drawsOutput = false := by simpa [Command.drawsOutput, h2, s64] using hr
      simp [hd, he]
    · rw [exec_nextRange_valid he hr] at h
      cases h
      have hd : c.drawsOutput = true := by simpa [Command.drawsOutput, h2, s64] using hr
      simp [hd]
  · rw [decode_reserved h3, exec_reserved] at h
    cases h
    simp [Command.drawsOutput, h3, he]

/-- What a step does to `init`: clears it with `rst` not low, sets it by an accepted NEW, or else keeps it (R12). -/
theorem init_of_step {s t : State} (h : step s = .next t) :
    (s.rstNow ≠ .low ∧ t.init = false) ∨
      (s.rstNow = .low ∧ (∃ c, s.cmds.head? = some c ∧ c.op = 0b00) ∧ t.init = true) ∨
      (s.rstNow = .low ∧ (∀ c, s.cmds.head? = some c → c.op ≠ 0b00) ∧ t.init = s.init) := by
  obtain ⟨c, rest, hlow, hc, hexec⟩ | ⟨hlow, hc, rfl⟩ | ⟨hr, rfl⟩ | ⟨k, hr, rfl⟩ := step_cases h
  · by_cases hop : c.op = 0b00
    · rw [decode_new hop] at hexec
      exact .inr (.inl ⟨hlow, ⟨c, by simp [hc], hop⟩, init_of_exec_new hexec⟩)
    · have hinit : t.init = s.init := by simpa using init_of_exec hexec (decode_ne_new hop)
      exact .inr (.inr ⟨hlow, by simpa [hc] using hop, hinit⟩)
  · exact .inr (.inr ⟨hlow, by simp [hc], rfl⟩)
  · exact .inl ⟨by simp [hr], rfl⟩
  · exact .inl ⟨by simp [hr], by simp [State.init, s.beginStep.abandon_frame k]⟩

/-! ### The invariant, kept by each operation a step is made of -/

theorem State.inv_iff (s : State) : s.Inv ↔
    (∀ e, s.engine = some e → e.increment.toNat % 2 = 1) ∧
      (∀ r, s.rsp = some r → r.status ≠ .ok → r.data = 0) ∧
      (s.rsp ≠ none → s.cmdReady = true) ∧
      (s.clkTake = true → s.entTake = true) ∧ s.clkReads ≤ s.entReads := by
  have hodd : s.oddIncrement = true ↔ ∀ e, s.engine = some e → e.increment.toNat % 2 = 1 := by
    simp [State.oddIncrement, Option.all_eq_true]
  have herr : s.errorsCarryNothing = true ↔ ∀ r, s.rsp = some r → r.status ≠ .ok → r.data = 0 := by
    simp [State.errorsCarryNothing, Response.isError, Option.all_eq_true, Decidable.or_iff_not_imp_left]
  have hready : s.respondedIsReady = true ↔ (s.rsp ≠ none → s.cmdReady = true) := by
    simp [State.respondedIsReady, State.rspValid, Decidable.or_iff_not_imp_left]
  have hdraws : s.drawsInOrder = true ↔ (s.clkTake = true → s.entTake = true) ∧ s.clkReads ≤ s.entReads := by
    cases h : s.clkTake <;> simp [State.drawsInOrder, h]
  simp only [State.Inv, State.inv, Bool.and_eq_true, hodd, herr, hready, hdraws, and_assoc]

/-- The beginning of a step takes the events back, so it establishes what the invariant says of them. -/
theorem State.Inv.beginStep {s : State} (h : s.Inv) : s.beginStep.Inv := by
  obtain ⟨hodd, -, -, -, hreads⟩ := s.inv_iff.mp h
  exact (State.inv_iff _).mpr ⟨hodd, nofun, nofun, nofun, hreads⟩

/-- The block turns busy only while no response is seen. -/
theorem State.Inv.accept {s : State} (h : s.Inv) (hrsp : s.rsp = none) (rest : List Command) :
    (s.accept rest).Inv := by
  obtain ⟨hodd, herr, -, htake, hreads⟩ := s.inv_iff.mp h
  exact (State.inv_iff _).mpr ⟨hodd, herr, fun hr => absurd hrsp hr, htake, hreads⟩

theorem State.Inv.underReset {s : State} (h : s.Inv) (hrsp : s.rsp = none) : s.underReset.Inv := by
  obtain ⟨-, herr, -, htake, hreads⟩ := s.inv_iff.mp h
  exact (State.inv_iff _).mpr ⟨nofun, herr, fun hr => absurd hrsp hr, htake, hreads⟩

/-- Any number of the draws keeps the order, since the entropy draw comes first (R26). -/
theorem State.Inv.takeDraws {s : State} (h : s.Inv) (k : Nat) : (s.takeDraws k).Inv := by
  obtain ⟨hodd, herr, hready, htake, hreads⟩ := s.inv_iff.mp h
  match k with
  | 0 => exact h
  | 1 => exact (State.inv_iff _).mpr ⟨hodd, herr, hready, fun _ => rfl, Nat.le_succ_of_le hreads⟩
  | _ + 2 => exact (State.inv_iff _).mpr ⟨hodd, herr, hready, fun _ => rfl, Nat.succ_le_succ hreads⟩

theorem State.Inv.setEngine {s : State} (h : s.Inv) {e : Engine} (he : e.increment.toNat % 2 = 1) :
    (s.setEngine e).Inv := by
  obtain ⟨-, herr, hready, htake, hreads⟩ := s.inv_iff.mp h
  refine (State.inv_iff _).mpr ⟨?_, herr, hready, htake, hreads⟩
  rintro _ ⟨⟩
  exact he

theorem State.Inv.answer {s : State} (h : s.Inv) {st : Status} {d : Word} (hd : st ≠ .ok → d = 0) :
    (s.answer st d).Inv := by
  obtain ⟨hodd, -, -, htake, hreads⟩ := s.inv_iff.mp h
  refine (State.inv_iff _).mpr ⟨hodd, ?_, fun _ => rfl, htake, hreads⟩
  rintro _ ⟨⟩
  exact hd

theorem State.Inv.abandon {s : State} (h : s.Inv) (hrsp : s.rsp = none) (k : Nat) : (s.abandon k).Inv := by
  obtain ⟨-, e⟩ | ⟨_, rest, -, ⟨-, e⟩ | ⟨-, e⟩⟩ := s.abandon_cases k
  · rw [e]
    exact h.underReset hrsp
  · obtain ⟨-, -, hr, -, -⟩ := (s.accept rest).takeDraws_frame k
    rw [e]
    exact ((h.accept hrsp rest).takeDraws k).underReset (hr.trans hrsp)
  · rw [e]
    exact (h.accept hrsp rest).underReset hrsp

/-- Every instruction keeps the invariant: the increment is `incrOf` of something or the old one, and a refusal has
data 0. -/
theorem exec_keeps_inv {i : Instr} {s t : State} (hs : s.Inv) (h : exec i s = .next t) : t.Inv := by
  obtain ⟨_, _, -, rfl⟩ | ⟨_, -, rfl⟩ | ⟨e, _, he, -, rfl⟩ | ⟨_, -, -, -, rfl⟩ := exec_cases h
  · exact (hs.setEngine (incrOf_toNat_mod_two _)).answer fun _ => rfl
  · exact ((hs.takeDraws 2).setEngine (incrOf_toNat_mod_two _)).answer fun _ => rfl
  · obtain ⟨hodd, -⟩ := s.inv_iff.mp hs
    exact (hs.setEngine (hodd e he)).answer fun hok => absurd rfl hok
  · exact hs.answer fun _ => rfl

/-! ### The statements -/

/-- Settles O43: a step is a beginning and then an execution, nothing, or a reset, and each of these keeps the
invariant. -/
theorem stepKeepsTheInvariant : Obligations.StepKeepsTheInvariant := by
  intro s t hs h
  obtain ⟨_, rest, -, -, hexec⟩ | ⟨-, -, rfl⟩ | ⟨-, rfl⟩ | ⟨k, -, rfl⟩ := step_cases h
  · exact exec_keeps_inv (hs.beginStep.accept rfl rest) hexec
  · exact hs.beginStep
  · exact hs.beginStep.underReset rfl
  · exact hs.beginStep.abandon rfl k

/-- Settles O24: a response tells of the engine only the output, and the output does not read the low 27 bits. -/
theorem responsesHideIncrementAndLowState : Obligations.ResponsesHideIncrementAndLowState := by
  rintro s e e' hbits i (rfl | ⟨low, high, rfl⟩)
  · refine ⟨_, _, exec_nextU32_some rfl, exec_nextU32_some rfl, ?_⟩
    simp [xshRr_congr hbits]
  · obtain hr | hr := lt_or_ge high low
    · exact ⟨_, _, exec_nextRange_invalid rfl hr, exec_nextRange_invalid rfl hr, rfl⟩
    · refine ⟨_, _, exec_nextRange_valid rfl hr, exec_nextRange_valid rfl hr, ?_⟩
      simp [xshRr_congr hbits]

/-- Settles O33, by the three things that a step can do to `init`. -/
theorem initSetByNewClearedByReset : Obligations.InitSetByNewClearedByReset := by
  intro s t h
  obtain ⟨hr, ht⟩ | ⟨hlow, ⟨c, hc, hop⟩, ht⟩ | ⟨hlow, hno, ht⟩ := init_of_step h
  · exact ⟨fun _ => ht, fun _ ⟨hlow, _⟩ => absurd hlow hr, by simp [ht], fun _ _ => hr⟩
  · exact ⟨absurd hlow, fun _ _ _ => ht, fun _ _ => ⟨c, ⟨hlow, hc⟩, hop⟩, by simp [ht]⟩
  · refine ⟨absurd hlow, fun c ⟨_, hc⟩ hop => absurd hop (hno c hc), ?_, ?_⟩
    · intro h0 h1
      simp [ht, h0] at h1
    · intro h1 h0
      simp [ht, h1] at h0

/-- Settles O34, by the instruction that the accepted command decodes to. -/
theorem engineAdvancesOnlyByDrawnOutputs : Obligations.EngineAdvancesOnlyByDrawnOutputs := by
  intro s t e h hlow he
  constructor
  · intro c hc hop
    rw [step_of_accepts hc] at h
    exact engine_of_exec_decode h he hop
  · intro hnil
    rw [step_low_nil hlow hnil] at h
    cases h
    exact he

/-- Settles O37: each part is the frame of one group of fields. -/
theorem instructionFrame : Obligations.InstructionFrame := by
  intro i s t h
  obtain ⟨hcmds, hrst⟩ := inputs_of_exec h
  refine ⟨hcmds, hrst, draws_of_exec h, fun hi => ⟨increment_of_exec h hi, init_of_exec h hi⟩,
    engine_of_exec_error h, ?_⟩
  rintro rfl
  rw [exec_reserved] at h
  cases h
  rfl

/-- Settles O44: after reset there is no engine, no response and no draw to speak of. -/
theorem resetMeetsTheInvariant : Obligations.ResetMeetsTheInvariant :=
  State.reset.inv_iff.mpr ⟨nofun, nofun, fun _ => rfl, nofun, Nat.le_refl 0⟩

end Sys2Proof.Machine
end

section
/-! PROOFS. The statements of 20_memory.md: the response to each accepted command, the two draws of a default-seeded NEW
and nothing else that draws, and what the collaborators' integers become at the ports. -/

namespace Sys2Proof.Machine

/-! ### The datapath on unbounded integers (R8) -/

theorem incrOf_toNat (x : Word) : (incrOf x).toNat = incrNat x.toNat := by
  rw [incrNat, Nat.or_mod_two_pow]
  simp [incrOf]

theorem lcgStep_toNat (s inc : Word) : (lcgStep s inc).toNat = lcgNat s.toNat inc.toNat := by
  have hmult : mult.toNat = multNat := by decide
  rw [lcgStep, lcgNat, BitVec.toNat_add, BitVec.toNat_mul, hmult, Nat.mod_add_mod]

theorem incseedOf_toNat (inc : Option Word) : (incseedOf inc).toNat = (inc.map BitVec.toNat).getD 1 := by
  cases inc <;> rfl

/-- The state a construction leaves, by the integer formulas of R52 and R53. -/
theorem primedEngine_state_toNat (seed : Word) (inc : Option Word) :
    (primedEngine seed inc).state.toNat = lcgNat seed.toNat (incrNat ((inc.map BitVec.toNat).getD 1)) := by
  simp only [primedEngine, lcgStep_toNat, incrOf_toNat, incseedOf_toNat]

/-! ### The entropy port and the clock port -/

theorem State.entValue_toNat_of_listed {s : State} {e : Nat} {es : List (Option Nat)} (h : s.entIn = some e :: es) :
    s.entValue.toNat = e % 2 ^ 64 := by
  simp only [State.entValue, h, portWord, BitVec.toNat_ofNat]

theorem State.clkTicks_toNat_of_listed {s : State} {c : Nat} {cs : List (Option Nat)} (h : s.clkIn = some c :: cs) :
    s.clkTicks.toNat = c % 2 ^ 64 := by
  simp only [State.clkTicks, h, portWord, BitVec.toNat_ofNat]

/-! ### Accepting a command, answering it, abandoning it -/

/-- Every step accepts a command or accepts none (R22). -/
theorem State.acceptsNone_or_accepts (s : State) : s.acceptsNone ∨ ∃ c, s.accepts c := by
  by_cases hlow : s.rstNow = .low
  · cases hc : s.cmds with
    | nil => exact .inl (.inr hc)
    | cons c rest => exact .inr ⟨c, hlow, by simp [hc]⟩
  · exact .inl (.inl hlow)

/-- Every instruction ends with its response and the block ready for the next command (R22, R23). -/
theorem answered_of_exec {i : Instr} {s t : State} (h : exec i s = .next t) :
    t.rspValid = true ∧ t.cmdReady = true := by
  obtain ⟨_, _, -, rfl⟩ | ⟨_, -, rfl⟩ | ⟨_, _, -, -, rfl⟩ | ⟨_, -, -, -, rfl⟩ := exec_cases h
  all_goals exact ⟨rfl, rfl⟩

/-- A step that accepts no command, or abandons one, gives no response (R23, R34). -/
theorem rspValid_of_acceptsNone {s t : State} (h : step s = .next t) (hnone : s.acceptsNone) : t.rspValid = false := by
  obtain ⟨_, _, hlow, hc, -⟩ | ⟨-, -, rfl⟩ | ⟨-, rfl⟩ | ⟨k, -, rfl⟩ := step_cases h
  · obtain hr | hnil := hnone
    · exact absurd hlow hr
    · simp [hc] at hnil
  · rfl
  · rfl
  · obtain ⟨-, -, hrsp, -, -⟩ := s.beginStep.abandon_frame k
    simp [State.rspValid, hrsp]

/-! ### The two draws -/

/-- A NEW whose "seed present" bit is 0 decodes to a default-seeded construction (R37). -/
theorem decode_new_none {c : Command} (hop : c.op = 0b00) (hsp : c.sp = false) :
    decode c = .new none (optionOf c.ip c.b) := by
  rw [decode_new hop, hsp, optionOf_false]

/-- An instruction that draws no seed is not a NEW without one (R26). -/
theorem ne_new_none_of_drawsSeed {i : Instr} (h : drawsSeed i = false) (inc : Option Word) : i ≠ .new none inc := by
  rintro rfl
  exact nomatch h

/-- Abandoning a construction without a seed keeps the draws already made (R30, R95). -/
theorem State.abandon_of_drawsSeed {s : State} {c : Command} (hc : s.cmds.head? = some c)
    (hd : drawsSeed (decode c) = true) (k : Nat) :
    s.abandon k = ((s.accept s.cmds.tail).takeDraws k).underReset := by
  obtain ⟨hnil, -⟩ | ⟨d, rest, hcons, ⟨-, e⟩ | ⟨hd', -⟩⟩ := s.abandon_cases k
  · simp [hnil] at hc
  · rw [e, hcons, List.tail_cons]
  · obtain rfl : d = c := by simpa [hcons] using hc
    simp [hd] at hd'

/-- Under `rst` high, or without a construction without a seed at the port, a step draws nothing (R26). -/
theorem step_draws_nothing {s t : State} (h : step s = .next t)
    (hno : s.rstNow = .high ∨ ∀ c, s.cmds.head? = some c → drawsSeed (decode c) = false) :
    t.entReads = s.entReads ∧ t.clkReads = s.clkReads ∧ t.entTake = false ∧ t.clkTake = false ∧
      t.entIn = s.entIn ∧ t.clkIn = s.clkIn := by
  obtain ⟨c, rest, hlow, hc, hexec⟩ | ⟨-, -, rfl⟩ | ⟨-, rfl⟩ | ⟨k, hr, rfl⟩ := step_cases h
  · have hd : drawsSeed (decode c) = false := by simpa [hlow, hc] using hno
    obtain ⟨hent, hclk, hents, hclks, hte, htc⟩ := draws_of_exec hexec (ne_new_none_of_drawsSeed hd)
    exact ⟨hents, hclks, hte, htc, hent, hclk⟩
  · exact ⟨rfl, rfl, rfl, rfl, rfl, rfl⟩
  · exact ⟨rfl, rfl, rfl, rfl, rfl, rfl⟩
  · obtain ⟨-, e⟩ | ⟨c, rest, hc, ⟨hd, -⟩ | ⟨-, e⟩⟩ := s.beginStep.abandon_cases k
    · rw [e]
      exact ⟨rfl, rfl, rfl, rfl, rfl, rfl⟩
    · simp only [State.beginStep_cmds] at hc
      simp [hr, hc, hd] at hno
    · rw [e]
      exact ⟨rfl, rfl, rfl, rfl, rfl, rfl⟩

/-! ### The statements -/

/-- Settles O15: a port reduces the listed integer, and the sum of the two words is the reduced sum of the integers. -/
theorem collaboratorIntegersAtThePorts : Obligations.CollaboratorIntegersAtThePorts := by
  intro s e c es cs inc he hc
  have hent := State.entValue_toNat_of_listed he
  have hclk := State.clkTicks_toNat_of_listed hc
  have hseed : (s.entValue + s.clkTicks).toNat = (e + c) % 2 ^ 64 := by
    rw [BitVec.toNat_add, hent, hclk, ← Nat.add_mod]
  refine ⟨hent, hclk, _, exec_new_none inc s, by simp [he], by simp [hc], ?_⟩
  simp [primedEngine_state_toNat, hseed]

/-- Settles O32: an instruction always answers, and no other part of a step does. -/
theorem oneResponsePerAcceptedCommand : Obligations.OneResponsePerAcceptedCommand := by
  intro s t h
  refine ⟨?_, rspValid_of_acceptsNone h, s.acceptsNone_or_accepts⟩
  intro c hc
  rw [step_of_accepts hc] at h
  obtain ⟨hvalid, hready⟩ := answered_of_exec h
  obtain ⟨hcmds, -⟩ := inputs_of_exec h
  obtain ⟨-, hhead⟩ := hc
  refine ⟨hvalid, hready, ?_⟩
  rw [hcmds, State.accept_cmds, List.cons_head?_tail hhead]

/-- Settles O35, by the three cases: the construction runs, it is abandoned between its draws, or there is none. -/
theorem drawsOnlyByDefaultSeededNew : Obligations.DrawsOnlyByDefaultSeededNew := by
  intro s t h
  refine ⟨?_, ?_, ?_⟩
  · intro c hc hop hsp
    rw [step_of_accepts hc, decode_new_none hop hsp, exec_new_none] at h
    cases h
    exact ⟨rfl, rfl, rfl, rfl, rfl, rfl⟩
  · intro k c hr hc hop hsp
    have hd : drawsSeed (decode c) = true := by simp [drawsSeed_decode, hop, hsp]
    rw [step_rises hr, State.abandon_of_drawsSeed (s := s.beginStep) hc hd] at h
    cases h
    simpa using (s.beginStep.accept s.cmds.tail).takeDraws_draws k
  · intro hno
    refine step_draws_nothing h (hno.imp_right fun hport c hc => ?_)
    simpa [drawsSeed_decode] using hport c hc

/-- Settles O36: what an instruction leaves and answers is decided by the engine it finds, the same in both states. -/
theorem pureApartFromTheDraws : Obligations.PureApartFromTheDraws := by
  intro i s s' he hi
  cases i with
  | new seed inc =>
    cases seed with
    | none => exact absurd rfl (hi inc)
    | some v => exact ⟨_, _, exec_new_some v inc s, exec_new_some v inc s', rfl, rfl⟩
  | nextU32 =>
    cases hs : s.engine with
    | none => exact ⟨_, _, exec_nextU32_none hs, exec_nextU32_none (he.symm.trans hs), he, rfl⟩
    | some e => exact ⟨_, _, exec_nextU32_some hs, exec_nextU32_some (he.symm.trans hs), rfl, rfl⟩
  | nextRange low high =>
    cases hs : s.engine with
    | none =>
      exact ⟨_, _, exec_nextRange_none low high hs, exec_nextRange_none low high (he.symm.trans hs), he, rfl⟩
    | some e =>
      obtain hr | hr := lt_or_ge high low
      · exact ⟨_, _, exec_nextRange_invalid hs hr, exec_nextRange_invalid (he.symm.trans hs) hr, he, rfl⟩
      · exact ⟨_, _, exec_nextRange_valid hs hr, exec_nextRange_valid (he.symm.trans hs) hr, rfl, rfl⟩
  | reserved => exact ⟨_, _, exec_reserved s, exec_reserved s', he, rfl⟩

/-- Settles O29: the stated state is the one a step that accepts a command executes in. -/
theorem stepRunsTheDecodedInstruction : Obligations.StepRunsTheDecodedInstruction :=
  fun _ _ _ hlow hc => step_low_cons hlow hc

end Sys2Proof.Machine
end

section
/-! PROOFS. The statements of 30_encoding.md: the fields of the command word and of the response word, the rows of the
table, that decoding and encoding undo each other, and that the ignored bits select nothing. -/

namespace Sys2Proof

open Machine

/-! ### The fields of a command -/

/-- The control field is its three parts (R35). -/
theorem Command.ctl_eq_fields (c : Command) : c.ctl = c.op ++ BitVec.ofBool c.sp ++ BitVec.ofBool c.ip := by
  have h : ∀ x : BitVec 4,
      x = x.extractLsb' 2 2 ++ BitVec.ofBool (x.getLsbD 1) ++ BitVec.ofBool (x.getLsbD 0) := by decide
  exact h c.ctl

/-- A control field put together from three parts has these parts (R35). -/
theorem Command.fields_of_ctl {c : Command} {op : BitVec 2} {sp ip : Bool}
    (h : c.ctl = op ++ BitVec.ofBool sp ++ BitVec.ofBool ip) : c.op = op ∧ c.sp = sp ∧ c.ip = ip := by
  have hparts : ∀ (op : BitVec 2) (sp ip : Bool),
      (op ++ BitVec.ofBool sp ++ BitVec.ofBool ip).extractLsb' 2 2 = op ∧
        (op ++ BitVec.ofBool sp ++ BitVec.ofBool ip).getLsbD 1 = sp ∧
        (op ++ BitVec.ofBool sp ++ BitVec.ofBool ip).getLsbD 0 = ip := by decide
  rw [Command.op, Command.sp, Command.ip, h]
  exact hparts op sp ip

/-- A command is determined by its fields (R35). -/
theorem Command.eq_of_fields {c d : Command} (hctl : c.ctl = d.op ++ BitVec.ofBool d.sp ++ BitVec.ofBool d.ip)
    (ha : c.a = d.a) (hb : c.b = d.b) : c = d := by
  rw [← d.ctl_eq_fields] at hctl
  cases c
  cases d
  cases hctl
  cases ha
  cases hb
  rfl

/-- The mask `1100` keeps the `op` field alone (R47). -/
theorem Command.ctl_masked_eq_iff (c : Command) (op : BitVec 2) : c.ctl &&& 0b1100 = op ++ 0#2 ↔ c.op = op := by
  have h : ∀ (x : BitVec 4) (op : BitVec 2), x &&& 0b1100 = op ++ 0#2 ↔ x.extractLsb' 2 2 = op := by decide
  exact h c.ctl op

/-! ### The command word -/

theorem Command.toWord_ctl (c : Command) : c.toWord.extractLsb' 128 4 = c.ctl :=
  calc c.toWord.extractLsb' 128 4
    _ = (c.ctl ++ c.a).extractLsb' 64 4 := BitVec.extractLsb'_append_eq_of_le (by decide)
    _ = c.ctl := BitVec.extractLsb'_append_eq_left

theorem Command.toWord_a (c : Command) : c.toWord.extractLsb' 64 64 = c.a :=
  calc c.toWord.extractLsb' 64 64
    _ = (c.ctl ++ c.a).extractLsb' 0 64 := BitVec.extractLsb'_append_eq_of_le (by decide)
    _ = c.a := BitVec.extractLsb'_append_eq_right

theorem Command.toWord_b (c : Command) : c.toWord.extractLsb' 0 64 = c.b :=
  BitVec.extractLsb'_append_eq_right

theorem Command.ofWord_toWord (c : Command) : Command.ofWord c.toWord = c := by
  rw [Command.ofWord, c.toWord_ctl, c.toWord_a, c.toWord_b]

theorem Command.toWord_ofWord (cw : BitVec 132) : (Command.ofWord cw).toWord = cw := by
  have hctla : cw.extractLsb' 128 4 ++ cw.extractLsb' 64 64 = cw.extractLsb' 64 68 :=
    BitVec.extractLsb'_append_extractLsb'_eq_extractLsb' rfl
  rw [Command.toWord, Command.ofWord, hctla]
  exact BitVec.extractLsb'_append_extractLsb'

/-! ### What a command decodes to -/

/-- The `op` field alone tells the operation (R36). -/
theorem opField_decode (c : Command) : (decode c).opField = c.op := by
  obtain h | h | h | h := c.op_cases
  · rw [decode_new h, h, Instr.opField]
  · rw [decode_nextU32 h, h, Instr.opField]
  · rw [decode_nextRange h, h, Instr.opField]
  · rw [decode_reserved h, h, Instr.opField]

theorem op_of_decode_eq {c : Command} {i : Instr} (h : decode c = i) : c.op = i.opField := by
  rw [← opField_decode, h]

/-- A form of NEW takes the operands whose presence bits are 1 (R37). -/
theorem decode_of_newForm {c : Command} (sp ip : Bool)
    (h : c.ctl = (0b00 : BitVec 2) ++ BitVec.ofBool sp ++ BitVec.ofBool ip) :
    decode c = .new (optionOf sp c.a) (optionOf ip c.b) := by
  obtain ⟨hop, hsp, hip⟩ := Command.fields_of_ctl h
  rw [decode_new hop, hsp, hip]

/-- The bounds the decoder reads are 64-bit signed integers (R38). -/
theorem decode_wellFormed (c : Command) : (decode c).WellFormed := by
  obtain h | h | h | h := c.op_cases
  · rw [decode_new h]; rfl
  · rw [decode_nextU32 h]; rfl
  · rw [decode_nextRange h]
    simp only [Instr.WellFormed, Instr.wf, inS64_s64, Bool.and_self]
  · rw [decode_reserved h]; rfl

/-- The decoder reads no ignored bit (R39). -/
theorem decode_eq_of_sameUsedBits {c d : Command} (h : c.sameUsedBits d) : decode c = decode d := by
  obtain ⟨hop, hnew, hrange⟩ := h
  obtain h | h | h | h := c.op_cases
  · obtain ⟨hsp, hip, ha, hb⟩ := hnew h
    rw [decode_new h, decode_new (hop.symm.trans h), ← hsp, ← hip]
    congr 1
    · cases hs : c.sp
      · rfl
      · rw [ha hs]
    · cases hi : c.ip
      · rfl
      · rw [hb hi]
  · rw [decode_nextU32 h, decode_nextU32 (hop.symm.trans h)]
  · obtain ⟨ha, hb⟩ := hrange h
    rw [decode_nextRange h, decode_nextRange (hop.symm.trans h), ha, hb]
  · rw [decode_reserved h, decode_reserved (hop.symm.trans h)]

/-! ### The encoder -/

/-- An encoding has the instruction's operation code and no ignored bit set (R39). -/
theorem encodeCanonical (i : Instr) : Laws.EncodeCanonical.Statement i := by
  cases i with
  | new seed incseed => exact Laws.EncodeCanonical.new seed incseed
  | nextU32 => exact Laws.EncodeCanonical.nextU32
  | nextRange low high => exact Laws.EncodeCanonical.nextRange low high
  | reserved => exact Laws.EncodeCanonical.reserved

theorem op_encode (i : Instr) : (encode i).op = i.opField := (encodeCanonical i).1

theorem canonical_encode (i : Instr) : (encode i).canonical = true := (encodeCanonical i).2

/-- An optional argument is its presence bit and its value field (R37). -/
theorem optionOf_isSome_getD (o : Option Word) : optionOf o.isSome (o.getD 0) = o := by
  cases o <;> rfl

@[simp] theorem optionOf_isSome (present : Bool) (v : Word) : (optionOf present v).isSome = present := by
  cases present <;> rfl

/-- Nothing of a value field is lost if it is 0 where it is ignored (R39). -/
theorem optionOf_getD {present : Bool} {v : Word} (h : present = true ∨ v = 0) : (optionOf present v).getD 0 = v := by
  cases present with
  | true => rfl
  | false => exact (h.resolve_left nofun).symm

/-- Decoding undoes encoding: the presence bits bring back the optional arguments, and the signed reading brings back
the bounds. -/
theorem decode_encode {i : Instr} (h : i.WellFormed) : decode (encode i) = i := by
  cases i with
  | new seed incseed =>
    rw [decode_of_newForm seed.isSome incseed.isSome rfl]
    exact congrArg₂ Instr.new (optionOf_isSome_getD seed) (optionOf_isSome_getD incseed)
  | nextU32 => rfl
  | nextRange low high =>
    obtain ⟨hlow, hhigh⟩ : inS64 low = true ∧ inS64 high = true := Bool.and_eq_true_iff.mp h
    rw [decode_nextRange (op_encode _)]
    exact congrArg₂ Instr.nextRange (s64_u64 hlow) (s64_u64 hhigh)
  | reserved => rfl

/-- In a canonical NEXT_U32 or reserved command every field but `op` is 0 (R39). -/
theorem Command.fields_of_canonical_noOperands {c : Command} (hc : c.canonical = true)
    (h : c.op = 0b01 ∨ c.op = 0b11) : c.sp = false ∧ c.ip = false ∧ c.a = 0 ∧ c.b = 0 := by
  obtain h | h := h
  all_goals simpa [Command.canonical, h, and_assoc] using hc

/-- Encoding undoes decoding for a canonical command: each field comes back, the ignored ones as the 0 they were. -/
theorem encode_decode {c : Command} (hc : c.canonical = true) : encode (decode c) = c := by
  obtain h | h | h | h := c.op_cases
  · obtain ⟨ha, hb⟩ : (c.sp = true ∨ c.a = 0) ∧ (c.ip = true ∨ c.b = 0) := by
      simpa [Command.canonical, h] using hc
    rw [decode_new h]
    exact Command.eq_of_fields (by simp [h, encode, newCtl]) (optionOf_getD ha) (optionOf_getD hb)
  · obtain ⟨hsp, hip, ha, hb⟩ := Command.fields_of_canonical_noOperands hc (.inl h)
    rw [decode_nextU32 h]
    exact Command.eq_of_fields (by rw [h, hsp, hip]; rfl) ha.symm hb.symm
  · obtain ⟨hsp, hip⟩ : c.sp = false ∧ c.ip = false := by simpa [Command.canonical, h] using hc
    rw [decode_nextRange h]
    exact Command.eq_of_fields (by rw [h, hsp, hip]; rfl) (u64_s64 c.a) (u64_s64 c.b)
  · obtain ⟨hsp, hip, ha, hb⟩ := Command.fields_of_canonical_noOperands hc (.inr h)
    rw [decode_reserved h]
    exact Command.eq_of_fields (by rw [h, hsp, hip]; rfl) ha.symm hb.symm

/-! ### The statements -/

/-- Settles O4: the decoder by its `op` field, and the two round trips; an encoding is canonical, so no other command
comes back. -/
theorem decodeAndEncodeAgree : Obligations.DecodeAndEncodeAgree := by
  refine ⟨?_, fun _ _ => rfl, rfl, fun _ _ => rfl, fun i => decode_encode, fun c => ⟨?_, encode_decode⟩⟩
  · intro c
    obtain h | h | h | h := c.op_cases
    · rw [decode_new h, h]; rfl
    · rw [decode_nextU32 h, h]; rfl
    · rw [decode_nextRange h, h]; rfl
    · rw [decode_reserved h, h]; rfl
  · intro h
    rw [← h]
    exact canonical_encode _

/-- Settles O2: `ctl` is its three parts, and the word its three fields. -/
theorem commandWordLayout : Obligations.CommandWordLayout :=
  ⟨fun c =>
    ⟨c.ctl_eq_fields, rfl, rfl, rfl, c.toWord_ctl, c.toWord_a, c.toWord_b, c.ofWord_toWord, opField_decode c⟩,
    Command.toWord_ofWord⟩

/-- Settles O3: a row's match is the `op` field of its instruction, and a form of NEW its two presence bits. -/
theorem tableRowsPartitionControl : Obligations.TableRowsPartitionControl := by
  intro c
  refine ⟨(c.ctl_masked_eq_iff 0b00).trans ⟨?_, ?_⟩,
    (c.ctl_masked_eq_iff 0b01).trans ⟨decode_nextU32, op_of_decode_eq⟩,
    (c.ctl_masked_eq_iff 0b10).trans ⟨?_, ?_⟩, fun h => decode_nextRange ((c.ctl_masked_eq_iff 0b10).mp h),
    (c.ctl_masked_eq_iff 0b11).trans ⟨decode_reserved, op_of_decode_eq⟩, decode_of_newForm false false,
    decode_of_newForm false true, decode_of_newForm true false, decode_of_newForm true true⟩
  · exact fun h => ⟨_, _, decode_new h⟩
  · exact fun ⟨_, _, h⟩ => op_of_decode_eq h
  · exact fun h => ⟨_, _, decode_nextRange h⟩
  · exact fun ⟨_, _, h⟩ => op_of_decode_eq h

/-- Settles O5: a well-formed instruction is decoded from its own encoding. -/
theorem decodedExactlyTheWellFormed : Obligations.DecodedExactlyTheWellFormed := by
  intro i
  constructor
  · exact fun h => ⟨encode i, decode_encode h⟩
  · rintro ⟨c, rfl⟩
    exact decode_wellFormed c

/-- Settles O6: the step executes what the command decodes to, in a state that no longer holds the command. -/
theorem ignoredBitsSelectNothing : Obligations.IgnoredBitsSelectNothing := by
  refine ⟨fun s c d h => ?_, canonical_encode⟩
  rw [step_present, step_present, decode_eq_of_sameUsedBits h]
  rfl

/-- Settles O7: the two extracts of a concatenation are its parts. -/
theorem responseWordLayout : Obligations.ResponseWordLayout :=
  ⟨fun _ => ⟨BitVec.extractLsb'_append_eq_left, BitVec.extractLsb'_append_eq_right⟩, rfl, rfl, rfl, rfl⟩

end Sys2Proof
end

section
/-! PROOFS. The statements of 40_datapath_functions.md: the increment, the congruential step, the xorshift, the rotate,
the output permutation and the range mapper. First what each function is on unbounded integers and bit by bit, then the
statements. -/

namespace Sys2Proof.Machine

/-! ### The increment (R52) -/

/-- In bits: `incseed` loses bit 63, moves up one place, and bit 0 is 1. -/
theorem incrOf_eq_append (x : Word) : incrOf x = x.extractLsb' 0 63 ++ (1 : BitVec 1) := by
  have hshift : x <<< 1 = x.extractLsb' 0 63 ++ (0 : BitVec 1) := BitVec.shiftLeft_eq_concat_of_lt (by decide)
  have hone : (1 : Word) = (0 : BitVec 63) ++ (1 : BitVec 1) := rfl
  rw [incrOf, hshift, hone, BitVec.or_append]
  simp

/-- Bit 63 of an increment seed is all that an increment hides. -/
theorem incrOf_eq_iff (x y : Word) : incrOf x = incrOf y ↔ x.extractLsb' 0 63 = y.extractLsb' 0 63 := by
  rw [incrOf_eq_append, incrOf_eq_append]
  constructor
  · intro h
    have := congrArg (BitVec.extractLsb' 1 63) h
    rwa [BitVec.extractLsb'_append_eq_left, BitVec.extractLsb'_append_eq_left] at this
  · intro h
    rw [h]

/-- An odd value is the increment of its upper 63 bits. -/
theorem incrOf_shiftRight_one {z : Word} (hz : z.toNat % 2 = 1) : incrOf (z >>> 1) = z := by
  refine BitVec.eq_of_getLsbD_eq fun i hi => ?_
  cases i with
  | zero => simp [incrOf, BitVec.getLsbD, Nat.testBit_zero, hz]
  | succ k => simp [incrOf, hi, Nat.add_comm]

/-! ### The congruential step (R53) -/

/-- The inverse of `MULT` modulo 2^64, which exists because `MULT` is odd. -/
def multInv : Word := 0xC097EF87329E28A5

theorem multInv_mul_mult : multInv * mult = 1 := by decide

/-- The step for one increment is undone by subtracting the increment and multiplying by the inverse of `MULT`. -/
theorem lcgStep_bijective (inc : Word) : Function.Bijective fun s => lcgStep s inc := by
  refine Function.bijective_iff_has_inverse.mpr ⟨fun t => multInv * (t - inc), fun s => ?_, fun t => ?_⟩
  · calc multInv * (mult * s + inc - inc)
      _ = multInv * mult * s := by rw [BitVec.add_sub_cancel, BitVec.mul_assoc]
      _ = s := by rw [multInv_mul_mult, one_mul]
  · calc mult * (multInv * (t - inc)) + inc
      _ = multInv * mult * (t - inc) + inc := by rw [← BitVec.mul_assoc, BitVec.mul_comm mult]
      _ = t := by rw [multInv_mul_mult, one_mul, BitVec.sub_add_cancel]

theorem lcgStep_zero (inc : Word) : lcgStep 0 inc = inc := by
  rw [lcgStep, mul_zero, zero_add]

/-- The last state is −1. -/
theorem lcgStep_neg_one (inc : Word) : lcgStep (-1) inc = inc - mult := by
  rw [lcgStep, mul_neg_one, neg_add_eq_sub]

/-! ### The xorshift and the rotate amount (R54, R55) -/

theorem xorshiftedOf_toNat (old : Word) : (xorshiftedOf old).toNat = xorshiftedNat old.toNat := by
  rw [xorshiftedOf, BitVec.toNat_setWidth, BitVec.toNat_ushiftRight, BitVec.toNat_xor, BitVec.toNat_ushiftRight]
  rfl

/-- Bit `k` takes part in the exclusive-or with bit `k + 18` of the shifted state, which ends at bit 18. -/
theorem xorshiftedOf_getLsbD (old : Word) {k : Nat} (hk : k < 32) :
    (xorshiftedOf old).getLsbD k =
      if k ≤ 18 then Bool.xor (old.getLsbD (k + 27)) (old.getLsbD (k + 45)) else old.getLsbD (k + 27) := by
  have hbit : (xorshiftedOf old).getLsbD k = Bool.xor (old.getLsbD (k + 45)) (old.getLsbD (k + 27)) := by
    simp [xorshiftedOf, hk, Nat.add_comm, ← Nat.add_assoc]
  rw [hbit]
  split
  · exact Bool.xor_comm _ _
  · rw [BitVec.getLsbD_of_ge old (k + 45) (by omega), Bool.false_xor]

theorem xorshiftedOf_congr {old old' : Word} (h : old >>> 27 = old' >>> 27) :
    xorshiftedOf old = xorshiftedOf old' := by
  rw [xorshiftedOf_eq_of_high_bits, xorshiftedOf_eq_of_high_bits, h]

/-- Below 2^27 a state has the high bits of the state 0. -/
theorem shiftRight_eq_zero_shiftRight_of_lt {old : Word} (h : old.toNat < 2 ^ 27) : old >>> 27 = (0 : Word) >>> 27 := by
  refine BitVec.eq_of_toNat_eq ?_
  rw [BitVec.toNat_ushiftRight, Nat.shiftRight_eq_zero _ _ h]
  rfl

theorem rotOf_eq_extractLsb' (old : Word) : rotOf old = old.extractLsb' 59 5 :=
  BitVec.setWidth_ushiftRight_eq_extractLsb

theorem rotOf_toNat (old : Word) : (rotOf old).toNat = old.toNat >>> 59 := by
  have hold := old.isLt
  rw [rotOf, BitVec.toNat_setWidth, BitVec.toNat_ushiftRight]
  exact Nat.mod_eq_of_lt (by omega)

/-! ### The rotate (R56) -/

theorem ror32_zero (x : Half) : ror32 x 0 = x := rfl

/-- The unbranched formula: the library's rotate, whose left shift by 32 is 0. -/
theorem ror32_eq_rotateRight (x : Half) (r : Rot) : ror32 x r = x.rotateRight r.toNat := by
  rw [BitVec.rotateRight_def, Nat.mod_eq_of_lt r.isLt]
  by_cases hr : r = 0
  · subst hr
    simp [ror32]
  · rw [ror32, if_neg hr]

theorem ror32_toNat (x : Half) (r : Rot) : (ror32 x r).toNat = rorNat x.toNat r.toNat := by
  have hright : x.toNat >>> r.toNat % 2 ^ 32 = x.toNat >>> r.toNat :=
    Nat.mod_eq_of_lt (x >>> r.toNat).isLt
  rw [ror32_eq_rotateRight, BitVec.rotateRight_def, Nat.mod_eq_of_lt r.isLt, BitVec.toNat_or, BitVec.toNat_ushiftRight,
    BitVec.toNat_shiftLeft, rorNat, Nat.or_mod_two_pow, hright]

theorem ror32_getLsbD (x : Half) (r : Rot) {k : Nat} (hk : k < 32) :
    (ror32 x r).getLsbD k = x.getLsbD ((k + r.toNat) % 32) := by
  have hr : r.toNat < 32 := r.isLt
  rw [ror32_eq_rotateRight, BitVec.getLsbD_rotateRight, Nat.mod_eq_of_lt hr]
  by_cases hwrap : k < 32 - r.toNat
  · have hpos : (k + r.toNat) % 32 = r.toNat + k := by omega
    simp [hwrap, hpos]
  · have hpos : (k + r.toNat) % 32 = k - (32 - r.toNat) := by omega
    simp [hwrap, hpos, hk]

/-- A rotate moves bits only, so it leaves a value whose bits are all equal. -/
theorem ror32_eq_self_of_bits {x : Half} {v : Bool} (h : ∀ k < 32, x.getLsbD k = v) (r : Rot) : ror32 x r = x := by
  refine BitVec.eq_of_getLsbD_eq fun k hk => ?_
  rw [ror32_getLsbD x r hk, h k hk, h _ (Nat.mod_lt _ (by decide))]

/-! ### The output permutation (R57) -/

theorem xshRr_toNat (old : Word) : (xshRr old).toNat = outNat old.toNat := by
  rw [xshRr, ror32_toNat, xorshiftedOf_toNat, rotOf_toNat, outNat]

/-- With the top five bits 0 there is no rotate. -/
theorem xshRr_eq_xorshiftedOf {old : Word} (h : old.toNat < 2 ^ 59) : xshRr old = xorshiftedOf old := by
  have hrot : rotOf old = 0 := by
    refine BitVec.eq_of_toNat_eq ?_
    rw [rotOf_toNat, Nat.shiftRight_eq_zero _ _ h]
    rfl
  rw [xshRr, hrot, ror32_zero]

/-! ### The range mapper (R58) -/

section
variable {low high : Int} (h : low ≤ high)
include h

theorem one_le_spanOf : 1 ≤ spanOf low high := by
  rw [spanOf]
  omega

/-- The divisor is positive and the dividend is not negative, so the remainder is that of natural numbers. -/
theorem remainder_bounds (r : Half) :
    0 ≤ (r.toNat : Int) % spanOf low high ∧ (r.toNat : Int) % spanOf low high < spanOf low high ∧
      (r.toNat : Int) % spanOf low high ≤ r.toNat := by
  have hpos := one_le_spanOf h
  obtain ⟨n, hn⟩ := Int.eq_ofNat_of_zero_le (by omega : 0 ≤ spanOf low high)
  rw [hn] at hpos ⊢
  have hlt := Nat.mod_lt r.toNat (by omega : 0 < n)
  have hle := Nat.mod_le r.toNat n
  omega

/-- The remainder is below the span, and the span ends at `high`. -/
theorem rangeMap_mem_bounds (r : Half) : low ≤ rangeMap r low high ∧ rangeMap r low high ≤ high := by
  obtain ⟨hnonneg, hlt, -⟩ := remainder_bounds h r
  rw [spanOf] at hnonneg hlt
  rw [rangeMap, spanOf]
  omega

end

/-- In a span wider than the raw output nothing is reduced. -/
theorem rangeMap_of_lt_spanOf {r : Half} {low high : Int} (h : (r.toNat : Int) < spanOf low high) :
    rangeMap r low high = low + r.toNat := by
  rw [rangeMap, Int.emod_eq_of_lt (Int.natCast_nonneg _) h]

theorem rangeMap_self (r : Half) (v : Int) : rangeMap r v v = v := by
  rw [rangeMap, spanOf, Int.sub_self, Int.zero_add, Int.emod_one, Int.add_zero]

/-- The bounds' difference modulo 2^64 is their difference. -/
theorem toNat_sub_of_toInt_le {a b : Word} (h : a.toInt ≤ b.toInt) : ((b - a).toNat : Int) = b.toInt - a.toInt := by
  have ha := a.isLt
  have hb := b.isLt
  rw [BitVec.toInt_eq_toNat_cond, BitVec.toInt_eq_toNat_cond] at h ⊢
  rw [BitVec.toNat_sub]
  omega

/-- The 32-bit remainder is the remainder by the span; where its divisor would not fit, `r` is below the span. -/
theorem rangeMap64_eq_add (r : Half) (a b : Word) :
    rangeMap64 r a b = a + BitVec.ofNat 64 (r.toNat % ((b - a).toNat + 1)) := by
  have hr := r.isLt
  rw [rangeMap64]
  refine congrArg (a + ·) ?_
  generalize b - a = d
  split
  case isTrue hwide =>
    have hwide : 0xFFFFFFFF ≤ d.toNat := hwide
    rw [Nat.mod_eq_of_lt (by omega), BitVec.ofNat_toNat, zext64]
  case isFalse hnarrow =>
    have hnarrow : d.toNat < 0xFFFFFFFF := Nat.lt_of_not_le hnarrow
    have hdivisor : ((d + 1).setWidth 32).toNat = d.toNat + 1 := by
      rw [BitVec.toNat_setWidth, BitVec.toNat_add]
      show (d.toNat + 1) % 2 ^ 64 % 2 ^ 32 = d.toNat + 1
      omega
    rw [zext64, ← BitVec.ofNat_toNat, BitVec.toNat_umod, hdivisor]

section
variable {a b : Word} (h : a.toInt ≤ b.toInt)
include h

/-- The 64-bit form gives the pattern of the result (R58, R43). -/
theorem rangeMap64_eq_u64 (r : Half) : rangeMap64 r a b = u64 (rangeMap r a.toInt b.toInt) := by
  have hspan : spanOf a.toInt b.toInt = (((b - a).toNat + 1 : Nat) : Int) := by
    rw [spanOf, ← toNat_sub_of_toInt_le h]
    rfl
  rw [rangeMap64_eq_add, u64, rangeMap, BitVec.ofInt_add, BitVec.ofInt_toInt, hspan, ← Int.natCast_mod,
    BitVec.ofInt_natCast]

/-- Within 64-bit bounds the result is a 64-bit signed integer, so its pattern reads back as the result. -/
theorem rangeMap64_toInt (r : Half) : (rangeMap64 r a b).toInt = rangeMap r a.toInt b.toInt := by
  obtain ⟨hlow, hhigh⟩ := rangeMap_mem_bounds h r
  have hfits : inS64 (rangeMap r a.toInt b.toInt) = true := by
    have ha := inS64_iff.mp (inS64_s64 a)
    have hb := inS64_iff.mp (inS64_s64 b)
    rw [s64] at ha hb
    rw [inS64_iff]
    omega
  rw [rangeMap64_eq_u64 h]
  exact s64_u64 hfits

theorem spanOf_le_two_pow : spanOf a.toInt b.toInt ≤ 2 ^ 64 := by
  have hlt := (b - a).isLt
  rw [spanOf, ← toNat_sub_of_toInt_le h]
  omega

end

/-! ### The statements -/

/-- Settles O8: the increment is the seed's low 63 bits before a 1. -/
theorem incrementIsShiftedAndForcedOdd : Obligations.IncrementIsShiftedAndForcedOdd :=
  ⟨fun x => ⟨incrOf_toNat x, incrOf_eq_append x, incrOf_toNat_mod_two x⟩, incrOf_eq_iff,
    fun z hz => ⟨z >>> 1, incrOf_shiftRight_one hz⟩, by decide⟩

/-- Settles O9: an odd multiplier has an inverse modulo 2^64, and the last state is −1. -/
theorem congruentialStepIsModularAndBijective : Obligations.CongruentialStepIsModularAndBijective := by
  refine ⟨lcgStep_toNat, lcgStep_bijective, fun inc => ⟨lcgStep_zero inc, ?_, lcgStep_neg_one inc⟩, ?_, by decide⟩
  · exact lcgStep_toNat 1 inc
  · intro s hs
    omega

/-- Settles O10: the xorshift by its integer formula, by its bits, and as a function of the state shifted by 27. -/
theorem xorshiftSelectsBits : Obligations.XorshiftSelectsBits := by
  refine ⟨fun old => ⟨xorshiftedOf_toNat old, ?_⟩, fun old k => xorshiftedOf_getLsbD old,
    fun _ _ => xorshiftedOf_congr, ?_, by decide⟩
  · have hlt := ((old >>> 18) ^^^ old).isLt
    rw [BitVec.toNat_xor, BitVec.toNat_ushiftRight] at hlt
    omega
  · exact fun old hold => xorshiftedOf_congr (shiftRight_eq_zero_shiftRight_of_lt hold)

/-- Settles O11: the unbranched formula, to which the branch at 0 adds nothing. -/
theorem rotateRightWithinThirtyTwoBits : Obligations.RotateRightWithinThirtyTwoBits := by
  refine ⟨fun x r => ?_, ror32_toNat, fun x r k => ror32_getLsbD x r, fun r => ⟨?_, ?_⟩, by decide⟩
  · split
    case isTrue hr => rw [BitVec.eq_of_toNat_eq (y := (0 : Rot)) hr, ror32_zero]
    case isFalse => exact ror32_toNat x r
  · exact ror32_eq_self_of_bits (v := false) (by decide) r
  · exact ror32_eq_self_of_bits (v := true) (by decide) r

/-- Settles O12: the states 0 and 1 have the same output, as has every state below 2^27. -/
theorem outputPermutationOfTheOldState : Obligations.OutputPermutationOfTheOldState :=
  ⟨fun old => ⟨rotOf_toNat old, rotOf_eq_extractLsb' old, rfl, xshRr_toNat old⟩, nextOutput_fst,
    fun _ hold => xshRr_congr (shiftRight_eq_zero_shiftRight_of_lt hold), fun _ => xshRr_eq_xorshiftedOf,
    ⟨0, 1, by decide, xshRr_congr (by decide)⟩, by decide⟩

/-- Settles O13: the remainder lies below a positive span, and the datapath's remainder is the same one. -/
theorem rangeMapperStaysInRange : Obligations.RangeMapperStaysInRange := by
  refine ⟨fun r low high h => ?_, fun r a b h => ⟨spanOf_le_two_pow h, rangeMap64_eq_u64 h r, rangeMap64_toInt h r⟩,
    rangeMap_self, fun r low => ?_, fun low => ?_, fun r => ?_, by decide⟩
  · obtain ⟨hnonneg, hlt, hle⟩ := remainder_bounds h r
    exact ⟨rfl, one_le_spanOf h, hnonneg, hlt, hle, rangeMap_mem_bounds h r⟩
  · exact rangeMap_of_lt_spanOf (by rw [spanOf]; omega)
  · have hspan : spanOf low (low + 4294967294) = 4294967295 := by
      rw [spanOf]
      omega
    rw [rangeMap, hspan]
    exact Int.add_zero low
  · exact rangeMap_of_lt_spanOf (by rw [spanOf, minS64, maxS64]; omega)

end Sys2Proof.Machine
end

section
/-! PROOFS. The statements of 41_new.md: what a construction leaves, from a supplied and from a drawn seed, and that
nothing of the old instance is in it. -/

namespace Sys2Proof.Machine

/-! ### The seed a construction chooses (R61) -/

/-- The seed as an integer: the supplied one, or the sum of the two ports modulo 2^64. -/
theorem chooseSeed_fst_toNat (seed : Option Word) (s : State) :
    (chooseSeed seed s).1.toNat =
      (seed.map BitVec.toNat).getD ((s.entValue.toNat + s.clkTicks.toNat) % 2 ^ 64) := by
  cases seed with
  | some v => rfl
  | none => exact BitVec.toNat_add s.entValue s.clkTicks

/-- Choosing the seed takes one value from each port if no seed is supplied, and otherwise none (R26). -/
theorem chooseSeed_snd_reads (seed : Option Word) (s : State) :
    (chooseSeed seed s).2.entReads = s.entReads + (if seed.isNone then 1 else 0) ∧
      (chooseSeed seed s).2.clkReads = s.clkReads + (if seed.isNone then 1 else 0) := by
  cases seed with
  | some v => exact ⟨rfl, rfl⟩
  | none => exact ⟨rfl, rfl⟩

/-- Choosing the seed neither reads nor writes the engine. -/
theorem chooseSeed_with_engine (seed : Option Word) (s : State) (old : Option Engine) :
    chooseSeed seed { s with engine := old } =
      ((chooseSeed seed s).1, { (chooseSeed seed s).2 with engine := old }) := by
  cases seed with
  | some v => rfl
  | none => rfl

/-! ### The construction, and the first output after it -/

/-- NEW completes in every state, with the engine primed from the chosen seed (R61 to R63). -/
theorem exec_new (seed inc : Option Word) (s : State) :
    exec (.new seed inc) s =
      .next (((chooseSeed seed s).2.setEngine (primedEngine (chooseSeed seed s).1 inc)).answer .ok 0) := rfl

/-- The engine NEW finds does not matter to it (R64). -/
theorem exec_new_with_engine (seed inc : Option Word) (s : State) (old : Option Engine) :
    exec (.new seed inc) { s with engine := old } = exec (.new seed inc) s := by
  rw [exec_new, exec_new, chooseSeed_with_engine]
  rfl

theorem primedEngine_increment_toNat (seed : Word) (inc : Option Word) :
    (primedEngine seed inc).increment.toNat = incrNat ((inc.map BitVec.toNat).getD 1) := by
  rw [primedEngine, incrOf_toNat, incseedOf_toNat]

/-- The data of a NEXT_U32 response as an integer: the raw output, zero-extended (R57, R65). -/
theorem zext64_xshRr_toNat (old : Word) : (zext64 (xshRr old)).toNat = outNat old.toNat := by
  rw [zext64, BitVec.toNat_setWidth_of_le (by decide), xshRr_toNat]

/-! ### The statements -/

/-- Settles O14: the engine is primed from the chosen seed, and the next output is read from it. -/
theorem newConstructsAndPrimes : Obligations.NewConstructsAndPrimes := by
  intro seed inc s seed64 increment
  have hinc : (primedEngine (chooseSeed seed s).1 inc).increment.toNat = increment :=
    primedEngine_increment_toNat _ inc
  have hstate : (primedEngine (chooseSeed seed s).1 inc).state.toNat = lcgNat seed64 increment := by
    rw [primedEngine_state_toNat, chooseSeed_fst_toNat]
  have hout : (zext64 (xshRr (primedEngine (chooseSeed seed s).1 inc).state)).toNat =
      outNat (lcgNat seed64 increment) := by
    rw [zext64_xshRr_toNat, hstate]
  obtain ⟨hent, hclk⟩ := chooseSeed_snd_reads seed s
  exact ⟨_, exec_new seed inc s, rfl, rfl, congrArg some hinc, congrArg some hstate, hent, hclk,
    _, exec_nextU32_some rfl, rfl, congrArg some hout⟩

/-- Settles O16: the engine found does not matter, and the response is OK. -/
theorem newForgetsTheOldInstance : Obligations.NewForgetsTheOldInstance := by
  intro seed inc s old old'
  have hsame := (exec_new_with_engine seed inc s old).trans (exec_new_with_engine seed inc s old').symm
  exact ⟨hsame, _, exec_new seed inc _, rfl, rfl⟩

end Sys2Proof.Machine
end

section
/-! PROOFS. The statements of 42_next_u32.md: the result of NEXT_U32, its refusal without an instance, and the sequence
of states that the outputs are drawn from. -/

namespace Sys2Proof.Machine

/-! ### The result of NEXT_U32, by the integer formulas (R53, R57) -/

theorem lcgStep_eq_ofNat (s inc : Word) : lcgStep s inc = BitVec.ofNat 64 (lcgNat s.toNat inc.toNat) := by
  rw [← lcgStep_toNat, BitVec.ofNat_toNat, BitVec.setWidth_eq]

theorem zext64_xshRr_eq_ofNat (old : Word) : zext64 (xshRr old) = BitVec.ofNat 64 (outNat old.toNat) := by
  rw [← zext64_xshRr_toNat, BitVec.ofNat_toNat, BitVec.setWidth_eq]

/-- The raw output has 32 bits, since it is reduced last (R56). -/
theorem outNat_lt (old : Nat) : outNat old < 2 ^ 32 := Nat.mod_lt _ (by decide)

/-! ### One command and many, with `rst` low throughout -/

/-- With `rst` low in all the steps to come, the step that takes the first command from the port executes it, and leaves
the other commands to come and `rst` low. -/
theorem step_with_rst_low {s : State} {c : Command} {rest : List Command} (hlow : ∀ r ∈ s.rstIn, r = .low)
    (hc : s.cmds = c :: rest) :
    ∃ t, step s = .next t ∧ exec (decode c) (s.beginStep.accept rest) = .next t ∧ t.cmds = rest ∧
      ∀ r ∈ t.rstIn, r = .low := by
  have hnow : s.rstNow = .low := by
    cases hr : s.rstIn with
    | nil => simp [State.rstNow, hr]
    | cons r rs => simpa [State.rstNow, hr] using hlow r (by simp [hr])
  obtain ⟨t, ht⟩ := exec_isNext (decode c) (s.beginStep.accept rest)
  obtain ⟨hcmds, hrst⟩ := inputs_of_exec ht
  refine ⟨t, (step_low_cons hnow hc).trans ht, ht, hcmds, fun r hr => ?_⟩
  rw [hrst] at hr
  exact hlow r (List.mem_of_mem_tail hr)

/-- A command that draws an output brings the sequence one step on, and any other leaves it (R67, R88). -/
theorem stateAfter_countP_cons (inc x : Word) (c : Command) (cs : List Command) :
    stateAfter inc ((c :: cs).countP Command.drawsOutput) x =
      stateAfter inc (cs.countP Command.drawsOutput) (if c.drawsOutput then lcgStep x inc else x) := by
  cases hd : c.drawsOutput
  · rw [List.countP_cons_of_neg (by simp [hd])]
    rfl
  · rw [List.countP_cons_of_pos hd]
    rfl

/-- Commands without a NEW bring the state of a constructed block as many steps on as they draw outputs (R67). -/
theorem run_stateAfter {cs rest : List Command} {s : State} {x inc : Word} (hlow : ∀ r ∈ s.rstIn, r = .low)
    (hcmds : s.cmds = cs ++ rest) (hops : ∀ c ∈ cs, c.op ≠ 0b00)
    (he : s.engine = some { state := x, increment := inc }) :
    ∃ t : State, Host.Core.run core cs.length s = .next t ∧ t.cmds = rest ∧ (∀ r ∈ t.rstIn, r = .low) ∧
      t.engine = some { state := stateAfter inc (cs.countP Command.drawsOutput) x, increment := inc } := by
  induction cs generalizing s x with
  | nil => exact ⟨s, rfl, hcmds, hlow, he⟩
  | cons c cs ih =>
    obtain ⟨hop, hops⟩ := List.forall_mem_cons.mp hops
    obtain ⟨t, hstep, hexec, htcmds, htlow⟩ := step_with_rst_low hlow hcmds
    obtain ⟨u, hrun, hucmds, hulow, hue⟩ := ih htlow htcmds hops (engine_of_exec_decode hexec he hop)
    exact ⟨u, (run_of_step hstep).trans hrun, hucmds, hulow, by rw [hue, stateAfter_countP_cons]⟩

/-! ### The command that begins the sequence, and the one that draws from it -/

/-- A command with the operation code of NEW leaves the engine primed from the operands that its presence bits choose, and
from the ports and 1 in place of those that are absent (R61 to R63). -/
theorem engine_of_exec_new {c : Command} {s t : State} (h : exec (decode c) s = .next t) (hop : c.op = 0b00) :
    t.engine = some
      { state := lcgStep (if c.sp then c.a else s.entValue + s.clkTicks) (incrOf (if c.ip then c.b else 1)),
        increment := incrOf (if c.ip then c.b else 1) } := by
  have hinc : incseedOf (optionOf c.ip c.b) = if c.ip then c.b else 1 := by cases c.ip <;> rfl
  have hseed : (chooseSeed (optionOf c.sp c.a) s).1 = if c.sp then c.a else s.entValue + s.clkTicks := by
    cases c.sp <;> rfl
  rw [decode_new hop, exec_new] at h
  cases h
  simp [primedEngine, hinc, hseed]

/-- A command that draws an output answers from the state it finds: the output itself, or the output mapped into the
range (R65, R72). -/
theorem rsp_of_exec_drawsOutput {c : Command} {s t : State} {e : Engine} (h : exec (decode c) s = .next t)
    (he : s.engine = some e) (hd : c.drawsOutput = true) :
    t.rsp = some
      { status := .ok,
        data := if c.op = 0b01 then zext64 (xshRr e.state) else u64 (rangeMap (xshRr e.state) (s64 c.a) (s64 c.b)) } := by
  have hcases : c.op = 0b01 ∨ c.op = 0b10 ∧ s64 c.a ≤ s64 c.b := by simpa [Command.drawsOutput, s64] using hd
  obtain hop | ⟨hop, hr⟩ := hcases
  · rw [decode_nextU32 hop, exec_nextU32_some he] at h
    cases h
    simp [hop]
  · rw [decode_nextRange hop, exec_nextRange_valid he hr] at h
    cases h
    simp [hop]

/-! ### The statements -/

/-- Settles O17: the meaning of NEXT_U32 on an instance, read by the integer formulas. -/
theorem nextU32AnswersTheOldStatesOutput : Obligations.NextU32AnswersTheOldStatesOutput := by
  intro s e he
  refine ⟨?_, outNat_lt _⟩
  rw [exec_nextU32_some he, nextOutput_snd, lcgStep_eq_ofNat, zext64_xshRr_eq_ofNat]
  rfl

/-- Settles O41: NEW leaves `s_0`, the commands after it bring the state to `s_n`, and the next output is drawn there. -/
theorem stateFollowsTheSequence : Obligations.StateFollowsTheSequence := by
  intro first cs rest s hlow hcmds hnew hops seed64 inc s_n
  obtain ⟨s₀, hstep, hexec, hcmds₀, hlow₀⟩ := step_with_rst_low hlow hcmds
  have he₀ : s₀.engine = some { state := lcgStep seed64 inc, increment := inc } :=
    engine_of_exec_new (s := s.beginStep.accept _) hexec hnew
  obtain ⟨t, hrun, htcmds, htlow, hte⟩ := run_stateAfter hlow₀ hcmds₀ hops he₀
  refine ⟨t, (run_of_step hstep).trans hrun, htcmds, hte, fun c cs' hrest hd => ?_⟩
  obtain ⟨u, hustep, huexec, -, -⟩ := step_with_rst_low htlow (htcmds.trans hrest)
  exact ⟨u, hustep, by simpa only [zext64, u64, rangeMap, spanOf, s64] using rsp_of_exec_drawsOutput huexec hte hd⟩

/-- Settles O18: without an instance NEXT_U32 is refused, and a refusal writes the response alone. -/
theorem nextU32RefusedWithoutEngine : Obligations.NextU32RefusedWithoutEngine :=
  fun _ he => exec_nextU32_none he

end Sys2Proof.Machine
end

section
/-! PROOFS. The statements of 43_next_range.md: the result of NEXT_RANGE and its refusals, that it is NEXT_U32 with one
remainder, that its value lies within the bounds, and the corner cases. -/

namespace Sys2Proof.Machine

/-! ### The raw output as an integer -/

theorem zext64_toNat (v : Half) : (zext64 v).toNat = v.toNat :=
  BitVec.toNat_setWidth_of_le (by decide)

/-- An OK response to NEXT_U32 is the raw output of an instance, and tells what the command leaves (R65, R66). -/
theorem nextU32_ok_cases {s t : State} {d : Word} (h : exec .nextU32 s = .next t)
    (hrsp : t.rsp = some { status := .ok, data := d }) :
    ∃ e, s.engine = some e ∧ d = zext64 (xshRr e.state) ∧ t = (s.setEngine (nextOutput e).2).answer .ok d := by
  cases he : s.engine with
  | none =>
    rw [exec_nextU32_none he] at h
    cases h
    simp at hrsp
  | some e =>
    rw [exec_nextU32_some he] at h
    cases h
    obtain rfl : zext64 (xshRr e.state) = d := by simpa using hrsp
    exact ⟨e, rfl, rfl, rfl⟩

/-! ### The mapped value and its pattern (R43, R58, R75) -/

/-- Between 64-bit bounds the mapper gives a 64-bit signed integer. -/
theorem inS64_rangeMap {low high : Int} (hlow : inS64 low = true) (hhigh : inS64 high = true) (h : low ≤ high)
    (r : Half) : inS64 (rangeMap r low high) = true := by
  obtain ⟨hge, hle⟩ := rangeMap_mem_bounds h r
  rw [inS64_iff] at hlow hhigh ⊢
  omega

/-- With a span of 2^32 or more every output is below the span, so nothing is reduced. -/
theorem rangeMap_of_two_pow_le_spanOf {low high : Int} (h : 2 ^ 32 ≤ spanOf low high) (r : Half) :
    rangeMap r low high = low + r.toNat := by
  have hr := r.isLt
  exact rangeMap_of_lt_spanOf (by omega)

/-- An output equal to the span leaves the remainder 0. -/
theorem rangeMap_of_spanOf_eq {low high : Int} {r : Half} (h : spanOf low high = r.toNat) :
    rangeMap r low high = low := by
  rw [rangeMap, h, Int.emod_self, Int.add_zero]

/-- The pattern of a sum is the sum of the patterns, and that of a raw output its zero-extension. -/
theorem u64_add_toNat (v : Int) (r : Half) : u64 (v + r.toNat) = u64 v + zext64 r := by
  rw [u64, BitVec.ofInt_add, BitVec.ofInt_natCast, BitVec.ofNat_toNat]
  rfl

/-! ### The statements -/

/-- Settles O19: the meaning of NEXT_RANGE on an instance, read by the integer formulas. -/
theorem nextRangeMapsOneOutput : Obligations.NextRangeMapsOneOutput := by
  intro s e low high he hr
  rw [exec_nextRange_valid he hr, nextOutput_snd, lcgStep_eq_ofNat, u64, rangeMap, spanOf, xshRr_toNat]
  rfl

/-- Settles O21: the mapped value lies within the bounds, so its pattern reads back as the value. -/
theorem nextRangeStaysWithinBounds : Obligations.NextRangeStaysWithinBounds := by
  intro s e c he hop hr
  have hread : (u64 (rangeMap (xshRr e.state) c.a.toInt c.b.toInt)).toInt =
      rangeMap (xshRr e.state) c.a.toInt c.b.toInt :=
    s64_u64 (inS64_rangeMap (inS64_s64 c.a) (inS64_s64 c.b) hr _)
  rw [decode_nextRange hop]
  refine ⟨_, _, exec_nextRange_valid he hr, rfl, ?_⟩
  rw [s64, s64, hread]
  exact rangeMap_mem_bounds hr _

/-- Settles O22: both draw the same output, which its zero-extension keeps as an integer, and a remainder is at most its
dividend. -/
theorem nextRangeIsNextU32Reduced : Obligations.NextRangeIsNextU32Reduced := by
  intro s t low high d h hrsp hr
  obtain ⟨e, he, rfl, rfl⟩ := nextU32_ok_cases h hrsp
  rw [zext64_toNat]
  refine ⟨exec_nextRange_valid he hr, fun _ => ?_⟩
  obtain ⟨-, -, hle⟩ := remainder_bounds hr (xshRr e.state)
  have hout := (xshRr e.state).isLt
  rw [spanOf] at hle
  omega

/-- Settles O23: a span of 1, or equal to the output, leaves the remainder 0, a span of 2^32 or more reduces nothing, and
reversed bounds are refused whatever their distance. -/
theorem nextRangeCornerCases : Obligations.NextRangeCornerCases := by
  refine ⟨fun s e he => ⟨fun v => ?_, ?_, fun low => ?_, fun low => ?_, ?_⟩, fun low => ?_, fun r => ⟨?_, ?_⟩⟩
  · refine ⟨_, exec_nextRange_valid he (le_refl v), ?_, rfl⟩
    rw [rangeMap_self]
    rfl
  · refine ⟨_, exec_nextRange_valid he (by decide), ?_⟩
    rw [rangeMap_of_two_pow_le_spanOf (by decide), u64_add_toNat]
    rfl
  · refine ⟨_, exec_nextRange_valid he (by omega), ?_⟩
    rw [rangeMap_of_two_pow_le_spanOf (by rw [spanOf]; omega)]
    rfl
  · exact ⟨_, exec_nextRange_invalid he (by omega), rfl, rfl⟩
  · rw [decode_nextRange rfl]
    exact ⟨_, exec_nextRange_invalid he (by decide), rfl, rfl⟩
  · refine rangeMap_of_spanOf_eq ?_
    show low + 2 ^ 32 - 2 - low + 1 = (4294967295 : Int)
    omega
  · exact (rangeMap_mem_bounds (by decide) r).2
  · exact s64_u64 (inS64_rangeMap (by decide) (by decide) (by decide) r)

/-- Settles O20: the check of `init` comes first, then that of the bounds, and a refusal writes the response alone. -/
theorem nextRangeRefusals : Obligations.NextRangeRefusals :=
  ⟨fun _ low high he => exec_nextRange_none low high he, fun _ _ _ _ he hr => exec_nextRange_invalid he hr,
    fun _ hop => decode_nextRange hop, by decide⟩

end Sys2Proof.Machine
end

section
/-! PROOFS. The statements of 60_exceptions.md: the status of every command by the one priority, that a refused command
changes nothing, that nothing of it is left for the next step, and the reserved operation. -/

namespace Sys2Proof.Machine

/-! ### What a refusal is -/

/-- A response with an error status is what `noError` denies (R83). -/
theorem State.noError_eq_false_iff (s : State) : s.noError = false ↔ ∃ r, s.rsp = some r ∧ r.status ≠ .ok := by
  cases hr : s.rsp <;> simp [State.noError, Response.isError, hr]

/-- An instruction that answers an error does nothing but answer it, with data 0 (R80). -/
theorem eq_answer_of_exec_error {i : Instr} {s t : State} {r : Response} (h : exec i s = .next t)
    (hrsp : t.rsp = some r) (herr : r.status ≠ .ok) : t = s.answer r.status 0 := by
  obtain ⟨_, _, -, rfl⟩ | ⟨_, -, rfl⟩ | ⟨_, _, -, -, rfl⟩ | ⟨_, -, -, -, rfl⟩ := exec_cases h <;> cases hrsp
  case inr.inr.inr => rfl
  all_goals exact absurd rfl herr

/-- A step that ends with a response has accepted the command it answers (R22, R23). -/
theorem accepts_of_rsp {s t : State} {r : Response} (h : step s = .next t) (hrsp : t.rsp = some r) :
    ∃ c, s.accepts c := by
  refine s.acceptsNone_or_accepts.resolve_left fun hnone => ?_
  have hvalid := rspValid_of_acceptsNone h hnone
  simp [State.rspValid, hrsp] at hvalid

/-- A step reads neither the events of the step before nor `cmd_ready` as that step left it (R13, R89). -/
theorem step_with_events (s : State) (rsp : Option Response) (ready ent clk : Bool) :
    step { s with rsp := rsp, cmdReady := ready, entTake := ent, clkTake := clk } = step s := rfl

/-! ### The status of a command -/

/-- A command completes, and its status is the first in the priority of the errors whose condition holds (R81, R87). -/
theorem exec_decode_status (c : Command) (s : State) :
    ∃ t, exec (decode c) s = .next t ∧ t.rsp.map Response.status = some
      (if c.op = 0b11 then .errReservedOp
        else if c.op ≠ 0b00 ∧ s.engine = none then .errNoEngine
        else if c.op = 0b10 ∧ c.b.toInt < c.a.toInt then .errInvalidRange
        else .ok) := by
  obtain hop | hop | hop | hop := c.op_cases
  · rw [decode_new hop]
    exact ⟨_, exec_new _ _ s, by simp [hop]⟩
  · rw [decode_nextU32 hop]
    cases he : s.engine with
    | none => exact ⟨_, exec_nextU32_none he, by simp [hop]⟩
    | some e => exact ⟨_, exec_nextU32_some he, by simp [hop]⟩
  · rw [decode_nextRange hop]
    cases he : s.engine with
    | none => exact ⟨_, exec_nextRange_none _ _ he, by simp [hop]⟩
    | some e =>
      obtain hr | hr := lt_or_ge c.b.toInt c.a.toInt
      · exact ⟨_, exec_nextRange_invalid he hr, by simp [hop, hr]⟩
      · exact ⟨_, exec_nextRange_valid he hr, by simp [hop, hr]⟩
  · rw [decode_reserved hop]
    exact ⟨_, exec_reserved s, by simp [hop]⟩

/-! ### The statements -/

/-- Settles O26: the step executes what the command decodes to, on the engine it finds. -/
theorem statusOfEveryCommand : Obligations.StatusOfEveryCommand := by
  intro s c hc
  rw [step_of_accepts hc]
  exact exec_decode_status c (s.beginStep.accept s.cmds.tail)

/-- Settles O27: a step with a response executes an instruction, and one that answers an error does nothing else. -/
theorem refusedCommandChangesNothing : Obligations.RefusedCommandChangesNothing := by
  intro s t r h hrsp herr
  obtain ⟨c, hc⟩ := accepts_of_rsp h hrsp
  rw [step_of_accepts hc] at h
  exact eq_answer_of_exec_error h hrsp herr

/-- Settles O28: the refused command leaves nothing but the events of its step, and the next step does not read them. -/
theorem errorsAreNotSticky : Obligations.ErrorsAreNotSticky := by
  intro s t h herr
  obtain ⟨r, hrsp, hstatus⟩ := t.noError_eq_false_iff.mp herr
  rw [refusedCommandChangesNothing s t r h hrsp hstatus]
  exact step_with_events { s with rstIn := s.rstIn.tail, cmds := s.cmds.tail } _ _ _ _

/-- Settles O25: every command with the operation code `0b11` decodes to the reserved instruction, whose meaning is its
answer. -/
theorem reservedCommandRefused : Obligations.ReservedCommandRefused := by
  refine ⟨exec_reserved, fun s c hop => ?_⟩
  rw [step_present, decode_reserved hop]
  exact ⟨_, exec_reserved _, rfl, rfl⟩

end Sys2Proof.Machine
end

section
/-! PROOFS. The statements of 70_reset_and_hazards.md: that every step completes, what the reset input does, that an
unconstructed block refuses every command but NEW, and the values right after reset. -/

namespace Sys2Proof.Machine

/-! ### Every step completes -/

/-- A step reads the reset input, then the command port, and each way on has a next state (R109). -/
theorem step_isNext (s : State) : ∃ t, step s = .next t := by
  cases hr : s.rstNow with
  | high => exact ⟨_, step_high hr⟩
  | rises k => exact ⟨_, step_rises hr⟩
  | low =>
    cases hc : s.cmds with
    | nil => exact ⟨_, step_low_nil hr hc⟩
    | cons c rest =>
      rw [step_low_cons hr hc]
      exact exec_isNext _ _

/-! ### An unconstructed block refuses all but NEW -/

/-- An answer with an error status is one that `noError` denies (R83). -/
theorem State.answer_noError_of_ne_ok (s : State) {err : Status} (h : err ≠ .ok) (d : Word) :
    (s.answer err d).noError = false :=
  (State.noError_eq_false_iff _).mpr ⟨_, rfl, h⟩

/-- Without an instance an instruction other than NEW only answers an error (R83, R84). -/
theorem eq_answer_of_exec_unconstructed {i : Instr} {s t : State} (h : exec i s = .next t) (he : s.engine = none)
    (hi : ∀ seed inc, i ≠ .new seed inc) : ∃ err, err ≠ Status.ok ∧ t = s.answer err 0 := by
  obtain ⟨_, _, hn, -⟩ | ⟨_, hn, -⟩ | ⟨_, _, hsome, -⟩ | ⟨err, herr, -, -, rfl⟩ := exec_cases h
  · exact absurd hn (hi _ _)
  · exact absurd hn (hi _ _)
  · exact nomatch he.symm.trans hsome
  · exact ⟨err, herr, rfl⟩

/-- Commands without a NEW run on an unconstructed block without an instance or a draw, and the last response is a
refusal. So that the induction goes through, the response seen before the commands stands in when there are none. -/
theorem run_unconstructed {cs rest : List Command} {s : State} (he : s.engine = none)
    (hlow : ∀ r ∈ s.rstIn, r = .low) (hcmds : s.cmds = cs ++ rest) (hops : ∀ c ∈ cs, c.op ≠ 0b00) :
    ∃ t : State, Host.Core.run core cs.length s = .next t ∧ t.engine = none ∧ t.cmds = rest ∧
      t.entReads = s.entReads ∧ t.clkReads = s.clkReads ∧ (s.noError = false ∨ cs ≠ [] → t.noError = false) := by
  induction cs generalizing s with
  | nil => exact ⟨s, rfl, he, hcmds, rfl, rfl, fun h => h.resolve_right (absurd rfl)⟩
  | cons c cs ih =>
    obtain ⟨hop, hops⟩ := List.forall_mem_cons.mp hops
    obtain ⟨t, hstep, hexec, htcmds, htlow⟩ := step_with_rst_low hlow hcmds
    obtain ⟨err, herr, rfl⟩ := eq_answer_of_exec_unconstructed hexec he (decode_ne_new hop)
    obtain ⟨u, hrun, hue, hucmds, hent, hclk, hlast⟩ :=
      ih (s := (s.beginStep.accept (cs ++ rest)).answer err 0) he htlow htcmds hops
    have hrefused := (s.beginStep.accept (cs ++ rest)).answer_noError_of_ne_ok herr 0
    exact ⟨u, (run_of_step hstep).trans hrun, hue, hucmds, hent, hclk, fun _ => hlast (.inl hrefused)⟩

/-! ### The statements -/

/-- Settles O31: a step has a next state; an accepted command has its one response there, and an idle step only ends the
events of the step before. -/
theorem everyStepCompletes : Obligations.EveryStepCompletes := by
  intro s
  obtain ⟨t, h⟩ := step_isNext s
  obtain ⟨haccepted, -, -⟩ := oneResponsePerAcceptedCommand s t h
  refine ⟨t, h, fun c hc => (haccepted c hc).1, fun hlow hnil => ?_⟩
  rw [step_low_nil hlow hnil] at h
  cases h
  exact ⟨rfl, rfl, rfl⟩

/-- Settles O38: `rst` high holds the block under reset, a rise abandons the command, and by O33 nothing else clears
`init`. -/
theorem resetInputUnconstructs : Obligations.ResetInputUnconstructs := by
  intro s t h
  obtain ⟨-, -, -, hcleared⟩ := initSetByNewClearedByReset s t h
  refine ⟨fun hr => ?_, fun k hr => ?_, hcleared⟩
  · rw [step_high hr] at h
    cases h
    exact ⟨rfl, rfl, rfl, rfl, rfl, rfl, rfl, rfl⟩
  · rw [step_rises hr] at h
    cases h
    obtain ⟨hengine, hready, hrsp, -, -⟩ := s.beginStep.abandon_frame k
    exact ⟨hengine, hready, hrsp⟩

/-- Settles O40: each command of the sequence is refused and leaves the block as the next one finds it. -/
theorem nothingRunsBeforeNew : Obligations.NothingRunsBeforeNew := by
  intro cs rest s he hlow hcmds hops
  obtain ⟨t, hrun, hte, htcmds, hent, hclk, hlast⟩ := run_unconstructed he hlow hcmds hops
  exact ⟨t, hrun, hte, htcmds, hent, hclk, fun hcs => hlast (.inr hcs)⟩

/-- Settles O39: the values that the reset state is written with. -/
theorem resetStateValues : Obligations.ResetStateValues :=
  ⟨rfl, rfl, rfl, rfl, rfl, rfl⟩

end Sys2Proof.Machine
end

section
/-! PROOFS. The statements of 30_encoding.md on words and written sequences: the printed command words, a word placed at
the port, and the values of a `.draw` line (R45, D26). -/

namespace Sys2Proof.Machine

/-! ### What a sequence of lines takes and leaves, in two parts -/

theorem lineSteps_append (xs ys : List Line) : lineSteps (xs ++ ys) = lineSteps xs + lineSteps ys := by
  induction xs with
  | nil => simp [lineSteps]
  | cons l ls ih =>
    cases l with
    | command | resetPulse =>
      simp only [List.cons_append, lineSteps, ih]
      omega
    | draw | blank => exact ih

/-- The second part of a sequence starts from the offer that the first part leaves. -/
theorem offerAfter_append (offered : Option (Word × Word)) (xs ys : List Line) :
    offerAfter offered (xs ++ ys) = offerAfter (offerAfter offered xs) ys := by
  induction xs generalizing offered with
  | nil => rfl
  | cons l ls ih => cases l <;> exact ih _

/-- A `.draw` line takes no step, since it is no command and no `.reset`. -/
theorem lineSteps_append_draw (before between : List Line) (ent clk : Word) :
    lineSteps (before ++ .draw ent clk :: between) = lineSteps (before ++ between) := by
  simp only [lineSteps_append, lineSteps]

/-- A `.draw` line puts its own offer in place of what the lines before it leave (R45; log entry 22). -/
theorem offerAfter_append_draw (offered : Option (Word × Word)) (before between : List Line) (ent clk : Word) :
    offerAfter offered (before ++ .draw ent clk :: between) = offerAfter (some (ent, clk)) between :=
  offerAfter_append offered before _

/-! ### A written NEW without a seed, at the port -/

/-- A written command is the one that the next step accepts. -/
theorem State.presentFrom_accepts (s : State) (rest : List Line) (offered : Option (Word × Word)) (i : Instr) :
    (s.presentFrom offered (.command i :: rest)).accepts (encode i) := by
  cases hd : drawsSeed i <;> simp [State.accepts, State.rstNow, State.presentFrom, hd]

/-- A word listed as its integer is on the entropy port as it was (R24). -/
theorem State.entValue_of_listed_word {s : State} {v : Word} {es : List (Option Nat)}
    (h : s.entIn = some v.toNat :: es) : s.entValue = v :=
  BitVec.eq_of_toNat_eq ((State.entValue_toNat_of_listed h).trans (Nat.mod_eq_of_lt v.isLt))

/-- A word listed as its integer is on the clock port as it was (R25). -/
theorem State.clkTicks_of_listed_word {s : State} {v : Word} {cs : List (Option Nat)}
    (h : s.clkIn = some v.toNat :: cs) : s.clkTicks = v :=
  BitVec.eq_of_toNat_eq ((State.clkTicks_toNat_of_listed h).trans (Nat.mod_eq_of_lt v.isLt))

/-- Where the next entry states no integer the entropy port shows the free value of the read (log entry 4). -/
theorem State.entValue_of_unstated {s : State} {es : List (Option Nat)} (h : s.entIn = none :: es) :
    s.entValue = Config.freeEntropy s.entReads := by
  simp only [State.entValue, h]

/-- Where the next entry states no integer the clock port shows the free value of the read (log entry 4). -/
theorem State.clkTicks_of_unstated {s : State} {cs : List (Option Nat)} (h : s.clkIn = none :: cs) :
    s.clkTicks = Config.freeClock s.clkReads := by
  simp only [State.clkTicks, h]

/-- The step that accepts an encoded NEW without a seed completes, with the state primed from the sum of the two ports
(R61 to R63). -/
theorem step_of_accepts_new_none {s : State} {inc : Option Word} (h : s.accepts (encode (.new none inc))) :
    ∃ t : State, step s = .next t ∧
      t.engine.map Engine.state = some (lcgStep (s.entValue + s.clkTicks) (incrOf (inc.getD 1))) := by
  rw [step_of_accepts h, decode_encode rfl, exec_new_none]
  exact ⟨_, rfl, rfl⟩

/-! ### The statements -/

/-- Settles O42: the lines before the NEW leave it the offer of the last `.draw` line, or none, and the NEW finds that
offer on the ports. -/
theorem writtenDrawGoesToTheNextDefaultSeededNew : Obligations.WrittenDrawGoesToTheNextDefaultSeededNew := by
  refine ⟨fun s before between rest ent clk inc hbetween => ?_, fun s before rest inc hbefore => ?_⟩
  · obtain ⟨t, hrun⟩ :=
      run_presentFrom s (before ++ .draw ent clk :: between) (.command (.new none inc) :: rest) none
    rw [lineSteps_append_draw, offerAfter_append_draw, offerAfter_of_neither hbetween, List.append_assoc,
      List.cons_append] at hrun
    have haccepts := t.presentFrom_accepts rest (some (ent, clk)) (.new none inc)
    have hent : (t.presentFrom (some (ent, clk)) (.command (.new none inc) :: rest)).entValue = ent :=
      State.entValue_of_listed_word rfl
    have hclk : (t.presentFrom (some (ent, clk)) (.command (.new none inc) :: rest)).clkTicks = clk :=
      State.clkTicks_of_listed_word rfl
    obtain ⟨u, hstep, hstate⟩ := step_of_accepts_new_none haccepts
    rw [hent, hclk] at hstate
    exact ⟨_, u, hrun, haccepts, hent, hclk, hstep, hstate⟩
  · obtain ⟨t, hrun⟩ := run_presentFrom s before (.command (.new none inc) :: rest) none
    rw [offerAfter_none hbefore] at hrun
    exact ⟨_, hrun, t.presentFrom_accepts rest none (.new none inc), State.entValue_of_unstated rfl,
      State.clkTicks_of_unstated rfl⟩

/-- Settles O1: the `op` field of each printed word selects its instruction, and the operands are read off the word. -/
theorem sampleCommandWordsDecode : Obligations.SampleCommandWordsDecode :=
  ⟨decode_new rfl, decode_nextU32 rfl, decode_nextRange rfl, decode_nextRange rfl, decode_new rfl, decode_reserved rfl⟩

/-- Settles O30: the placed word is the command at the port, with `rst` low, so the next step accepts it and
executes it on the state it was placed in. -/
theorem placedWordRunsNext : Obligations.PlacedWordRunsNext := by
  intro s nbits w i hi
  obtain rfl : decode (tableCommand nbits w) = i := Option.some.inj hi
  exact step_present s (tableCommand nbits w)

end Sys2Proof.Machine
end
